-- ==== Sys2Proof/Word.lean ====
section
/-! DEFINITION. The words of the hardware: the byte of both memories (R7, R8) and the nine-bit
write transaction (R41). -/

namespace Sys2Proof

/-- One cell of display RAM, one line of a glyph, one transaction operand: 8 bits, unsigned
(00_scope.md section 7). -/
abbrev Byte := BitVec 8

/-- A write transaction `T[8:0] = {RS, DB[7:0]}` (R41). -/
abbrev TxnWord := BitVec 9

end Sys2Proof
end

