-- ==== Sys2Proof/Config.lean ====
section
/-! DEFINITION. The sizes and literals the source fixes (R4), and the two parameters of the
observation that it leaves open (R67, R68). -/

namespace Sys2Proof.Config

/-- `DDRAM_SIZE` (R4). -/
abbrev ddramSize : Nat := 80

/-- `ROW_STRIDE` (R4): cells per row of display RAM. -/
abbrev rowStride : Nat := 40

/-- `ROWS` (R4). -/
abbrev rows : Nat := 2

/-- `VISIBLE_COLS` (R4): visible columns per row, and the column at which the cursor wraps. -/
abbrev visibleCols : Nat := 16

/-- `CGRAM_SIZE` (R4). -/
abbrev cgramSize : Nat := 64

/-- `CG_SLOTS` (R4). -/
abbrev cgSlots : Nat := 8

/-- `CG_LINES` (R4): bytes (pixel rows) per glyph slot. -/
abbrev cgLines : Nat := 8

/-- `GLYPH_COLS` (R4): pixel columns per glyph row. -/
abbrev glyphCols : Nat := 5

/-- `SPACE` (R4): the fill and reset value of every display cell. -/
abbrev space : Byte := 0x20#8

/-- The reset value of every byte of character-generator RAM (R21). -/
abbrev cgramReset : Byte := 0x00#8

/-- `CLEAR_CODE` (R4, D10; notes/assumptions/9.md). -/
abbrev clearCode : Byte := 0x01#8

/-- `HOME_CODE` (R4, D10; notes/assumptions/9.md). -/
abbrev homeCode : Byte := 0x02#8

/-- The external font provider: a fixed total function from a character code to the 8 lines of its
glyph, uninterpreted (R67, D25; notes/assumptions/12.md). -/
opaque glyphBitmap : Byte → Vector Byte 8

/-- The observer's parameter `LEFTMOST_BIT` (R68, D15; notes/assumptions/12.md): true where it is 4,
false where it is 0. -/
opaque leftmostBitIsFour : Bool

end Sys2Proof.Config
end

