-- ==== Sys2Proof/Syntax.lean ====
section
/-! DEFINITION. The operations of the block, one constructor per row of spec/opcode_table.json, and
the requests by which the host presents them on the ports of R40. -/

namespace Sys2Proof

/-- The operation set of R50. The 254 ignored codes are the eight rows of R44 (D24); an ignored
row of several codes keeps its code `k`, the byte `DB` as it stands. -/
inductive Instr where
  /-- `WRITE_DATA b` (R52): the operand is a character code. -/
  | writeData (b : Byte)
  /-- `CLEAR` (R54). -/
  | clear
  /-- `HOME` (R55). -/
  | home
  /-- `CMD_IGNORED` with code 0x00 (R56). -/
  | cmdIgnored00
  /-- `CMD_IGNORED` with code 0x03 (R56): not HOME. -/
  | cmdIgnored03
  /-- `CMD_IGNORED k`, k in 0x04..0x07 (R56). -/
  | cmdIgnored04To07 (k : Byte)
  /-- `CMD_IGNORED k`, k in 0x08..0x0F (R56). -/
  | cmdIgnored08To0F (k : Byte)
  /-- `CMD_IGNORED k`, k in 0x10..0x1F (R56). -/
  | cmdIgnored10To1F (k : Byte)
  /-- `CMD_IGNORED k`, k in 0x20..0x3F (R56). -/
  | cmdIgnored20To3F (k : Byte)
  /-- `CMD_IGNORED k`, k in 0x40..0x7F (R56). -/
  | cmdIgnored40To7F (k : Byte)
  /-- `CMD_IGNORED k`, k in 0x80..0xFF (R56). -/
  | cmdIgnored80ToFF (k : Byte)
  /-- `RESET` (R82): the reset signal. -/
  | reset
  /-- `READ_CELL r, c` (R58): the operands of the ports `rd_row` and `rd_col`. -/
  | readCell (row : BitVec 1) (col : BitVec 6)
  /-- `READ_CURSOR` (R59). -/
  | readCursor
  /-- `READ_FLAGS` (R60). -/
  | readFlags
  /-- `READ_CGRAM j` (R61): the operand of the port `cg_addr`. -/
  | readCgram (index : BitVec 6)
  deriving DecidableEq, Repr

/-- One operation as the ports of R40 carry it: the reset signal, a write transaction with its
nine-bit word, or a read with its index operands. RESET and the reads have no word (R50). A request
is one operation, so two at once cannot be written down (R35, U3; notes/assumptions/15.md). -/
inductive Request where
  /-- `reset` asserted. -/
  | reset
  /-- `wr_valid` asserted with `{wr_rs, wr_db}` (R41). -/
  | txn (t : TxnWord)
  /-- `rd_data` taken for `rd_row`, `rd_col`. -/
  | readCell (row : BitVec 1) (col : BitVec 6)
  /-- `cur_col` and `cur_row` taken. -/
  | readCursor
  /-- `flags` taken. -/
  | readFlags
  /-- `cg_data` taken for `cg_addr`. -/
  | readCgram (index : BitVec 6)
  deriving DecidableEq, Repr

end Sys2Proof
end

