-- ==== Sys2Proof/Machine/State.lean ====
section
/-! DEFINITION. The state of one instance of the block (R11), the host's side of its interface, the
reasons an operation can stop, and the state after RESET (R21). -/

namespace Sys2Proof.Machine

/-- A memory: pairs of address and byte, in the canonical form `Memory.wf` says. -/
abbrev Memory := List Host.Cell

/-- An index of display RAM, `DD:i` (R23): an index outside the space cannot be written down. -/
abbrev DdIndex := Fin Config.ddramSize

/-- An index of character-generator RAM, `CG:j` (R23). -/
abbrev CgIndex := Fin Config.cgramSize

/-- The value a read hands to the host (R58 to R61). -/
inductive Answer where
  /-- `rd_data`: the character code of a cell (R58). -/
  | cell (b : Byte)
  /-- `cur_col`, `cur_row`: the cursor, column first (R59). -/
  | cursor (col : BitVec 4) (row : BitVec 1)
  /-- `flags`: `{D, C, B}` (R60). -/
  | flags (f : BitVec 3)
  /-- `cg_data`: a byte of character-generator RAM (R61). -/
  | cgram (b : Byte)
  deriving DecidableEq, Repr

/-- The state. The first seven fields are the tuple of R11, the whole state of the block. The last
two are the MODEL's own and stand for the host's side of the interface: R6 lists the host's sequence
of operations as no state of the block, and a read returns its result to the host. -/
structure State where
  /-- `DDRAM`, 80 cells (R7); an unlisted cell reads `Config.space` (notes/assumptions/8.md). -/
  ddram : List Host.Cell
  /-- `CGRAM`, 64 bytes (R8); an unlisted byte reads `Config.cgramReset` (notes/assumptions/8.md). -/
  cgram : List Host.Cell
  /-- `COL`, the cursor column, 4 bits (R9, D3). -/
  col : BitVec 4
  /-- `ROW`, the cursor row, 1 bit (R9, D3). -/
  row : BitVec 1
  /-- `D`, display-on (R10). -/
  displayOn : Bool
  /-- `C`, cursor-on (R10). -/
  cursorOn : Bool
  /-- `B`, blink-on: stored only (R10, R66, U4). -/
  blinkOn : Bool
  /-- The operations the host has lined up, next first (DESIGN CHOICE, notes/assumptions/1.md). -/
  pending : List Request
  /-- The value the last read handed to the host (DESIGN CHOICE, notes/assumptions/2.md). -/
  answer : Option Answer
  deriving DecidableEq, Repr

/-- The reasons a step can fault: none. The table of exception causes is empty (R69), so no
operation can raise a fault and this type has no constructor (notes/assumptions/16.md; safe). -/
inductive Fault where
  deriving DecidableEq, Repr

/-- The reasons a step can be refused. -/
inductive Refusal where
  /-- Raised by an arm of `exec` whose instruction has no meaning yet; no arm is left (safe). -/
  | notModelled (mnemonic : String)
  /-- Raised by READ_CELL alone, for `rd_col` in 40..63: a precondition violation to which the spec
  gives no result, no value and no fault (R58, R69, U2; notes/assumptions/6.md; safe). -/
  | readCellOutsideDomain
  deriving DecidableEq, Repr

/-- The machine right after RESET (R21). The state before the first RESET is undefined and is not a
state of the model (R83; notes/assumptions/5.md). -/
def State.reset : State where
  ddram := []
  cgram := []
  col := 0#4
  row := 0#1
  displayOn := true
  cursorOn := false
  blinkOn := false
  pending := []
  answer := none

end Sys2Proof.Machine
end

