-- ==== Sys2Proof/Machine/Ops.lean ====
section
/-! DEFINITION. The named operations over the memories (R27), the cursor (R51) and the host's side
of the interface. There is no operation that takes an exception or returns from one, because the
block raises nothing and has no trap entry or return (R69, R71, R73, R74). -/

namespace Sys2Proof.Machine

/-- What a memory holds at an address; `unlisted` where no entry names it. -/
def Memory.read (unlisted : Byte) : Memory → Nat → Byte
  | [], _ => unlisted
  | (a, b) :: rest, i => if a = i then b else Memory.read unlisted rest i

/-- Put an entry before the first one of a greater address. -/
def Memory.insert (a : Nat) (v : Byte) : Memory → Memory
  | [] => [(a, v)]
  | (x, b) :: rest => if a < x then (a, v) :: (x, b) :: rest else (x, b) :: Memory.insert a v rest

/-- Store one byte, keeping the canonical form: the value an unlisted address reads as is not
listed. -/
def Memory.write (unlisted : Byte) (m : Memory) (a : Nat) (v : Byte) : Memory :=
  let others := m.filter (fun cell => cell.1 != a)
  if v = unlisted then others else Memory.insert a v others

/-- The memory after one write of `v` to every one of the `size` addresses, in rising order. Every
address is written, so nothing of the memory before is left. -/
def Memory.fill (unlisted : Byte) (size : Nat) (v : Byte) : Memory :=
  (List.range size).foldl (fun m a => Memory.write unlisted m a v) []

/-- The canonical form: addresses strictly rising and inside the space, no entry equal to what an
unlisted address reads as. -/
def Memory.wf (unlisted : Byte) (size : Nat) (m : Memory) : Bool :=
  decide (m.Pairwise fun x y => x.1 < y.1) &&
    m.all fun cell => decide (cell.1 < size) && decide (cell.2 ≠ unlisted)

/-- `MemRead(DD:i, 1)` (R27). -/
def ddRead (s : State) (i : DdIndex) : Byte := Memory.read Config.space s.ddram i.val

/-- `MemWrite(DD:i, 1, v)` (R27). -/
def ddWrite (s : State) (i : DdIndex) (v : Byte) : State :=
  { s with ddram := Memory.write Config.space s.ddram i.val v }

/-- `MemRead(CG:j, 1)` (R27). -/
def cgRead (s : State) (j : CgIndex) : Byte := Memory.read Config.cgramReset s.cgram j.val

/-- `MemWrite(CG:j, 1, v)` (R27). No operation but RESET stores to this space, and RESET stores to
all of it at once, through `cgFill`. -/
def cgWrite (s : State) (j : CgIndex) (v : Byte) : State :=
  { s with cgram := Memory.write Config.cgramReset s.cgram j.val v }

/-- `for i in 0..79: MemWrite(DD:i, 1, v)` (R54, R82), one atomic transition (R30). -/
def ddFill (s : State) (v : Byte) : State :=
  { s with ddram := Memory.fill Config.space Config.ddramSize v }

/-- `for j in 0..63: MemWrite(CG:j, 1, v)` (R82). -/
def cgFill (s : State) (v : Byte) : State :=
  { s with cgram := Memory.fill Config.cgramReset Config.cgramSize v }

/-- `advance(c, r)` (R51): computed exactly and narrowed at the end (R53). The wrap is at the 16
visible columns, not at the stride 40 (R25, C8). -/
def advance (c : BitVec 4) (r : BitVec 1) : BitVec 4 × BitVec 1 :=
  let c1 := c.toNat + 1
  if c1 = Config.visibleCols then
    let r1 := r.toNat + 1
    (0#4, if r1 = Config.rows then 0#1 else BitVec.ofNat 1 r1)
  else (BitVec.ofNat 4 c1, r)

/-- `(COL, ROW) <- p`. -/
def setCursor (s : State) (p : BitVec 4 × BitVec 1) : State := { s with col := p.1, row := p.2 }

/-- `(COL, ROW) <- (0, 0)` (R54, R55, R82). -/
def homeCursor (s : State) : State := setCursor s (0#4, 0#1)

/-- `(COL, ROW) <- advance(COL, ROW)` (R52). -/
def advanceCursor (s : State) : State := setCursor s (advance s.col s.row)

/-- The position of the cursor in the visible window, `p = {r, c}` (R51): 0..31. -/
def windowPos (c : BitVec 4) (r : BitVec 1) : BitVec 5 := r ++ c

/-- Hand a value to the host: the result of a read. No element of the block's state changes
(R31; notes/assumptions/2.md). -/
def answerWith (s : State) (a : Answer) : State := { s with answer := some a }

/-- The host's operations still to come (notes/assumptions/1.md). -/
def withPending (s : State) (rs : List Request) : State := { s with pending := rs }

end Sys2Proof.Machine
end

