-- ==== Sys2Proof/Machine/Commands.lean ====
section
/-! DEFINITION. The control commands: CLEAR (R54), HOME (R55) and the ignored codes (R56). -/

namespace Sys2Proof.Machine

/-- CLEAR (R54): fill all 80 cells, hidden ones included, and put the cursor at the origin. -/
def execClear (s : State) : Host.Outcome State Fault Refusal :=
  .next (homeCursor (ddFill s Config.space))

/-- HOME (R55): put the cursor at the origin and change nothing else. -/
def execHome (s : State) : Host.Outcome State Fault Refusal := .next (homeCursor s)

/-- An ignored command (R56, R45): the identity transition, accepted and complete, no error. The
code has no effect. -/
def ignoreCommand (_k : Byte) (s : State) : Host.Outcome State Fault Refusal := .next s

/-- Code 0x00 (R56). -/
def execCmdIgnored00 (s : State) : Host.Outcome State Fault Refusal := ignoreCommand 0x00#8 s

/-- Code 0x03 (R56): not HOME. -/
def execCmdIgnored03 (s : State) : Host.Outcome State Fault Refusal := ignoreCommand 0x03#8 s

/-- Codes 0x04..0x07 (R56): no entry mode. -/
def execCmdIgnored04To07 (k : Byte) (s : State) : Host.Outcome State Fault Refusal :=
  ignoreCommand k s

/-- Codes 0x08..0x0F (R56): the flags are not written. -/
def execCmdIgnored08To0F (k : Byte) (s : State) : Host.Outcome State Fault Refusal :=
  ignoreCommand k s

/-- Codes 0x10..0x1F (R56): nothing shifts. -/
def execCmdIgnored10To1F (k : Byte) (s : State) : Host.Outcome State Fault Refusal :=
  ignoreCommand k s

/-- Codes 0x20..0x3F (R56): no function set. -/
def execCmdIgnored20To3F (k : Byte) (s : State) : Host.Outcome State Fault Refusal :=
  ignoreCommand k s

/-- Codes 0x40..0x7F (R56): no CGRAM address. -/
def execCmdIgnored40To7F (k : Byte) (s : State) : Host.Outcome State Fault Refusal :=
  ignoreCommand k s

/-- Codes 0x80..0xFF (R56): no DDRAM address, the cursor stays. -/
def execCmdIgnored80ToFF (k : Byte) (s : State) : Host.Outcome State Fault Refusal :=
  ignoreCommand k s

end Sys2Proof.Machine
end

