-- ==== Sys2Proof/Machine/Flags.lean ====
section
/-! DEFINITION. The mode flags register (R10): three stored bits, written by RESET alone and read by
READ_FLAGS alone. No operation computes a flag from a result (R14). -/

namespace Sys2Proof.Machine

/-- The flags as one value, `{D, C, B}`: `D` in bit 2, `C` in bit 1, `B` in bit 0 (R10, R60, D9). -/
def flagBits (s : State) : BitVec 3 :=
  BitVec.ofBool s.displayOn ++ BitVec.ofBool s.cursorOn ++ BitVec.ofBool s.blinkOn

/-- `D <- 1; C <- 0; B <- 0` (R82). -/
def resetFlags (s : State) : State :=
  { s with displayOn := true, cursorOn := false, blinkOn := false }

end Sys2Proof.Machine
end

