-- ==== Sys2Proof/Machine/Operands.lean ====
section
/-! DEFINITION. How the operands of the operations become indexes of the two memories (R24, R26,
R42, R53). The products are exact and in range, so each index is built with its bound. -/

namespace Sys2Proof.Machine

/-- The index of row `r`, column `c` (R24): `r*40 + c`, for `c` in 0..39. -/
def cellIndex (r : BitVec 1) (c : Fin Config.rowStride) : DdIndex :=
  ⟨r.toNat * Config.rowStride + c.val, by
    have hr := r.isLt
    have hc := c.isLt
    simp only [Config.ddramSize, Config.rowStride] at *
    omega⟩

/-- The index of a visible cell (R25): row `r`, column `c` in 0..15. -/
def visibleIndex (r : BitVec 1) (c : BitVec 4) : DdIndex :=
  cellIndex r ⟨c.toNat, by
    have hc := c.isLt
    simp only [Config.rowStride]
    omega⟩

/-- The cell under the cursor, `ROW*40 + COL` (R16, R52). -/
def cursorIndex (s : State) : DdIndex := visibleIndex s.row s.col

/-- READ_CELL's operands (R58): the index they name, none outside the domain 2 by 40. Column 40 of
row 0 is no alias of column 0 of row 1. -/
def readCellIndex (r : BitVec 1) (c : BitVec 6) : Option DdIndex :=
  if h : c.toNat < Config.rowStride then some (cellIndex r ⟨c.toNat, h⟩) else none

/-- READ_CGRAM's operand (R61): every value of the 6-bit port is an index. -/
def cgPortIndex (j : BitVec 6) : CgIndex :=
  ⟨j.toNat, by
    have hj := j.isLt
    simp only [Config.cgramSize]
    omega⟩

/-- Line `l` of glyph slot `slot` (R26, D8; notes/assumptions/11.md): `slot*8 + l`. -/
def slotLineIndex (slot : Fin Config.cgSlots) (l : Fin Config.cgLines) : CgIndex :=
  ⟨slot.val * Config.cgLines + l.val, by
    have hs := slot.isLt
    have hl := l.isLt
    simp only [Config.cgramSize, Config.cgSlots, Config.cgLines] at *
    omega⟩

end Sys2Proof.Machine
end

