-- ==== Sys2Proof/Machine/ReadBack.lean ====
section
/-! DEFINITION. The read-back operations (R58 to R61): each hands a function of the state to the host
and changes no element of the block's state (R31). -/

namespace Sys2Proof.Machine

/-- READ_CELL (R58): the cell its operands name, never the one under the cursor. Outside the domain
the read has no result and is refused (U2; notes/assumptions/6.md). -/
def execReadCell (row : BitVec 1) (col : BitVec 6) (s : State) :
    Host.Outcome State Fault Refusal :=
  match readCellIndex row col with
  | some i => .next (answerWith s (.cell (ddRead s i)))
  | none => .refused .readCellOutsideDomain

/-- READ_CURSOR (R59): column first, whatever the flags are. -/
def execReadCursor (s : State) : Host.Outcome State Fault Refusal :=
  .next (answerWith s (.cursor s.col s.row))

/-- READ_FLAGS (R60). -/
def execReadFlags (s : State) : Host.Outcome State Fault Refusal :=
  .next (answerWith s (.flags (flagBits s)))

/-- READ_CGRAM (R61): total on the 6-bit port. -/
def execReadCgram (index : BitVec 6) (s : State) : Host.Outcome State Fault Refusal :=
  .next (answerWith s (.cgram (cgRead s (cgPortIndex index))))

end Sys2Proof.Machine
end

