-- ==== Sys2Proof/Machine/Reset.lean ====
section
/-! DEFINITION. RESET (R82), at any time between two operations (R84). -/

namespace Sys2Proof.Machine

/-- RESET (R82): every element of the block's state to its reset value, reading none of it. The
host's own side (what it has lined up, what it last read) is the host's and stays. -/
def execReset (s : State) : Host.Outcome State Fault Refusal :=
  .next (resetFlags (homeCursor (cgFill (ddFill s Config.space) Config.cgramReset)))

end Sys2Proof.Machine
end

