-- ==== Sys2Proof/Machine/WriteData.lean ====
section
/-! DEFINITION. The write-data family: WRITE_DATA (R52). -/

namespace Sys2Proof.Machine

/-- WRITE_DATA (R52): store the byte in the cell under the cursor, whatever its value and whatever
the flags, then advance the cursor. The index is formed before the advance. -/
def execWriteData (b : Byte) (s : State) : Host.Outcome State Fault Refusal :=
  .next (advanceCursor (ddWrite s (cursorIndex s) b))

end Sys2Proof.Machine
end

