-- ==== Sys2Proof/Machine/Dispatch.lean ====
section
/-! DEFINITION. The meaning of every operation: one arm per row of spec/opcode_table.json. -/

namespace Sys2Proof.Machine

/-- One operation, executed whole (R30). -/
def exec (i : Instr) (s : State) : Host.Outcome State Fault Refusal :=
  match i with
  | .writeData b => Sys2Proof.Machine.execWriteData b s
  | .clear => Sys2Proof.Machine.execClear s
  | .home => Sys2Proof.Machine.execHome s
  | .cmdIgnored00 => Sys2Proof.Machine.execCmdIgnored00 s
  | .cmdIgnored03 => Sys2Proof.Machine.execCmdIgnored03 s
  | .cmdIgnored04To07 k => Sys2Proof.Machine.execCmdIgnored04To07 k s
  | .cmdIgnored08To0F k => Sys2Proof.Machine.execCmdIgnored08To0F k s
  | .cmdIgnored10To1F k => Sys2Proof.Machine.execCmdIgnored10To1F k s
  | .cmdIgnored20To3F k => Sys2Proof.Machine.execCmdIgnored20To3F k s
  | .cmdIgnored40To7F k => Sys2Proof.Machine.execCmdIgnored40To7F k s
  | .cmdIgnored80ToFF k => Sys2Proof.Machine.execCmdIgnored80ToFF k s
  | .reset => Sys2Proof.Machine.execReset s
  | .readCell row col => Sys2Proof.Machine.execReadCell row col s
  | .readCursor => Sys2Proof.Machine.execReadCursor s
  | .readFlags => Sys2Proof.Machine.execReadFlags s
  | .readCgram index => Sys2Proof.Machine.execReadCgram index s

end Sys2Proof.Machine
end

