-- ==== Sys2Proof/WellFormed.lean ====
section
/-! DEFINITION. Which terms of `Instr` are operations of the block: the code of an ignored command
lies in the range of its row (R44). Every other operand has the width of its port or field, so any
value of it is well formed; READ_CELL's columns 40..63 can be put on the port and are judged by the
operation itself (R58), not here. -/

namespace Sys2Proof

/-- The byte `k` lies in `lo..hi`. -/
def codeIn (lo hi : Nat) (k : Byte) : Bool := decide (lo ≤ k.toNat) && decide (k.toNat ≤ hi)

/-- An operation whose operands fit its row of the code map (R44, R42). -/
def Instr.wf : Instr → Bool
  | .writeData _ => true
  | .clear => true
  | .home => true
  | .cmdIgnored00 => true
  | .cmdIgnored03 => true
  | .cmdIgnored04To07 k => codeIn 0x04 0x07 k
  | .cmdIgnored08To0F k => codeIn 0x08 0x0F k
  | .cmdIgnored10To1F k => codeIn 0x10 0x1F k
  | .cmdIgnored20To3F k => codeIn 0x20 0x3F k
  | .cmdIgnored40To7F k => codeIn 0x40 0x7F k
  | .cmdIgnored80ToFF k => codeIn 0x80 0xFF k
  | .reset => true
  | .readCell _ _ => true
  | .readCursor => true
  | .readFlags => true
  | .readCgram _ => true

end Sys2Proof
end

