-- ==== Sys2Proof/Decode.lean ====
section
/-! DEFINITION. Decode of what the host presents (R43, R50), total on all 512 transaction words and
depending on the word alone (R46), and the encoder of R41 and R47. -/

namespace Sys2Proof

/-- `RS = T[8]` (R41). -/
def txnRs (t : TxnWord) : Bool := t.getLsbD 8

/-- `DB = T[7:0]` (R41). -/
def txnDb (t : TxnWord) : Byte := t.extractLsb' 0 8

/-- `executeCommand(code)` recognises two codes by equality of the whole byte; every other code is
ignored, and falls in one of the eight ranges of R44. -/
def decodeCommand (k : Byte) : Instr :=
  if k = Config.clearCode then .clear
  else if k = Config.homeCode then .home
  else if k = 0x00#8 then .cmdIgnored00
  else if k = 0x03#8 then .cmdIgnored03
  else if k.toNat < 0x08 then .cmdIgnored04To07 k
  else if k.toNat < 0x10 then .cmdIgnored08To0F k
  else if k.toNat < 0x20 then .cmdIgnored10To1F k
  else if k.toNat < 0x40 then .cmdIgnored20To3F k
  else if k.toNat < 0x80 then .cmdIgnored40To7F k
  else .cmdIgnored80ToFF k

/-- Decode of a transaction word (R43): the test on `RS` comes first, so a data byte is never
inspected for a command code. -/
def decodeTxn (t : TxnWord) : Instr :=
  if txnRs t then .writeData (txnDb t) else decodeCommand (txnDb t)

/-- Decode of a request (R43, R50). There is no illegal encoding (R45), so nothing is rejected. -/
def decode : Request → Instr
  | .reset => .reset
  | .txn t => decodeTxn t
  | .readCell row col => .readCell row col
  | .readCursor => .readCursor
  | .readFlags => .readFlags
  | .readCgram index => .readCgram index

/-- The word `{RS, DB}` (R41). -/
def txnWord (rs : Bool) (db : Byte) : TxnWord := BitVec.ofBool rs ++ db

/-- How the host presents an operation (R47, R50): `0x100 + b` for WRITE_DATA, `0x000 + k` for a
command, the ports for the rest. -/
def encode : Instr → Request
  | .writeData b => .txn (txnWord true b)
  | .clear => .txn (txnWord false Config.clearCode)
  | .home => .txn (txnWord false Config.homeCode)
  | .cmdIgnored00 => .txn (txnWord false 0x00#8)
  | .cmdIgnored03 => .txn (txnWord false 0x03#8)
  | .cmdIgnored04To07 k => .txn (txnWord false k)
  | .cmdIgnored08To0F k => .txn (txnWord false k)
  | .cmdIgnored10To1F k => .txn (txnWord false k)
  | .cmdIgnored20To3F k => .txn (txnWord false k)
  | .cmdIgnored40To7F k => .txn (txnWord false k)
  | .cmdIgnored80ToFF k => .txn (txnWord false k)
  | .reset => .reset
  | .readCell row col => .readCell row col
  | .readCursor => .readCursor
  | .readFlags => .readFlags
  | .readCgram index => .readCgram index

/-- The `match` and `mask` of an operation's row of spec/opcode_table.json; none for the rows of
format SIGNAL and PORT, which have no word (R50). -/
def Instr.row : Instr → Option (TxnWord × TxnWord)
  | .writeData _ => some (0x100#9, 0x100#9)
  | .clear => some (0x001#9, 0x1FF#9)
  | .home => some (0x002#9, 0x1FF#9)
  | .cmdIgnored00 => some (0x000#9, 0x1FF#9)
  | .cmdIgnored03 => some (0x003#9, 0x1FF#9)
  | .cmdIgnored04To07 _ => some (0x004#9, 0x1FC#9)
  | .cmdIgnored08To0F _ => some (0x008#9, 0x1F8#9)
  | .cmdIgnored10To1F _ => some (0x010#9, 0x1F0#9)
  | .cmdIgnored20To3F _ => some (0x020#9, 0x1E0#9)
  | .cmdIgnored40To7F _ => some (0x040#9, 0x1C0#9)
  | .cmdIgnored80ToFF _ => some (0x080#9, 0x180#9)
  | .reset => none
  | .readCell _ _ => none
  | .readCursor => none
  | .readFlags => none
  | .readCgram _ => none

/-- The eleven rows of format TXN9 of spec/opcode_table.json, as (match, mask). -/
def txnRows : List (TxnWord × TxnWord) :=
  [(0x100#9, 0x100#9), (0x001#9, 0x1FF#9), (0x002#9, 0x1FF#9), (0x000#9, 0x1FF#9),
   (0x003#9, 0x1FF#9), (0x004#9, 0x1FC#9), (0x008#9, 0x1F8#9), (0x010#9, 0x1F0#9),
   (0x020#9, 0x1E0#9), (0x040#9, 0x1C0#9), (0x080#9, 0x180#9)]

/-- The word `t` lies in the row with this match and mask. -/
def rowMatches (t : TxnWord) (row : TxnWord × TxnWord) : Bool := t &&& row.2 == row.1

/-- The request whose bits the opcode table numbers `w`: a transaction word, where `nbits` covers
the nine bits of TXN9 and the bits above them are zero. The rows of fewer bits (format SIGNAL and
PORT) are no words (R50; notes/assumptions/7.md). -/
def tableRequest (nbits w : Nat) : Option Request :=
  if 9 ≤ nbits ∧ w < 512 then some (.txn (BitVec.ofNat 9 w)) else none

/-- The operation this decoder reads from the table's word `w` of `nbits` bits. -/
def decodeTableWord (nbits w : Nat) : Option Instr := (tableRequest nbits w).map decode

end Sys2Proof
end

