-- ==== Sys2Proof/Machine/Fetch.lean ====
section
/-! DEFINITION. How an operation reaches the block. The block fetches nothing and has no program
counter (R13): the host hands it one operation after another, in the order it issues them (R34). -/

namespace Sys2Proof.Machine

/-- The operation the host issues next, and the state with it taken from the host's line; none
where the host issues nothing. -/
def nextOperation (s : State) : Option (Instr × State) :=
  match s.pending with
  | [] => none
  | r :: rest => some (decode r, withPending s rest)

/-- The block when the host issues nothing: it never moves on its own (R6, R81;
notes/assumptions/3.md). -/
def idle (s : State) : State := s

/-- The host's line with one request put before the others. -/
def presentNext (s : State) (r : Request) : State := withPending s (r :: s.pending)

/-- The host's line with the table's word put before the others; unchanged where the table's bits
are no word (R50; notes/assumptions/7.md). -/
def presentTableWord (s : State) (nbits w : Nat) : State :=
  match tableRequest nbits w with
  | some r => presentNext s r
  | none => s

end Sys2Proof.Machine
end

