-- ==== Sys2Proof/Machine/Step.lean ====
section
/-! DEFINITION. One step: the operation the host issues next, whole (R5, R30). -/

namespace Sys2Proof.Machine

/-- Take the operation the host issues next and execute it; do nothing where there is none. -/
def step (s : State) : Host.Outcome State Fault Refusal :=
  match nextOperation s with
  | some (i, s') => exec i s'
  | none => .next (idle s)

/-- `s` with the table's word `w` as the very next operation the host issues. -/
def State.withFetchWord (s : State) (nbits w : Nat) : State := presentTableWord s nbits w

end Sys2Proof.Machine
end

