-- ==== Sys2Proof/Machine/Assembly.lean ====
section
/-! DEFINITION. The spec's assembly (R47), its one pseudo-operation PRINT (R48), and the input events
of the reference host (R49), each as the list of operations it stands for. Characters are given by
their codes; the character set is the host's (D17, notes/assumptions/17.md). -/

namespace Sys2Proof.Machine

/-- A line of assembly (R47, R48). -/
inductive AsmLine where
  | reset
  | data (b : Byte)
  | clear
  | home
  | cmd (k : Byte)
  | rdcell (row : BitVec 1) (col : BitVec 6)
  | rdcur
  | rdflags
  | rdcg (index : BitVec 6)
  | print (codes : List Byte)
  deriving DecidableEq, Repr

/-- The operations of a line (R47): `CMD k` is CLEAR for 0x01, HOME for 0x02, else ignored; `PRINT`
is one `DATA` for each character in order (R48). -/
def asmOperations : AsmLine → List Instr
  | .reset => [.reset]
  | .data b => [.writeData b]
  | .clear => [.clear]
  | .home => [.home]
  | .cmd k => [decodeCommand k]
  | .rdcell row col => [.readCell row col]
  | .rdcur => [.readCursor]
  | .rdflags => [.readFlags]
  | .rdcg index => [.readCgram index]
  | .print codes => codes.map .writeData

/-- An input event of the reference host (R49). -/
inductive InputEvent where
  | ctrlC
  | ctrlH
  | text (codes : List Byte)
  | escape
  | windowClose
  deriving DecidableEq, Repr

/-- The operations the reference input layer issues for an event (R49): Escape and window-close end
its loop and issue none. -/
def eventOperations : InputEvent → List Instr
  | .ctrlC => [.clear]
  | .ctrlH => [.home]
  | .text codes => codes.map .writeData
  | .escape => []
  | .windowClose => []

end Sys2Proof.Machine
end

