-- ==== Sys2Proof/Machine/Instances.lean ====
section
/-! DEFINITION. Several instances of the block (R22, R79): a list of states, an operation on one. -/

namespace Sys2Proof.Machine

/-- Perform an operation on instance `n`; the other instances are not its concern. -/
def operateOn (bank : List State) (n : Fin bank.length) (i : Instr) :
    Host.Outcome (List State) Fault Refusal :=
  match exec i (bank.get n) with
  | .next t => .next (bank.set n.val t)
  | .fault f => .fault f
  | .refused r => .refused r

end Sys2Proof.Machine
end

