-- ==== Sys2Proof/Machine/Picture.lean ====
section
/-! DEFINITION. The picture an observer derives from the state (R62 to R68). The block draws nothing;
this is the meaning the source gives the flags and CGRAM. It adds no state and no operation. -/

namespace Sys2Proof.Machine

/-- The 8 lines of 5 pixels of one character cell (R68), top line first (D15), leftmost pixel
first; true is lit. -/
abbrev CellImage := Vector (Vector Bool 5) 8

/-- The picture (R63): 2 rows of 16 cells, top row and left column first, and the cell that carries
the cursor indicator. Where in its cell the indicator lies is the observer's (R65, D16;
notes/assumptions/14.md). -/
structure Picture where
  cells : Vector (Vector CellImage 16) 2
  indicator : Option (BitVec 4 × BitVec 1)
  deriving DecidableEq, Repr

/-- The glyph of a code (R67): slot `k` of CGRAM for codes 0 to 7, the font for the others. -/
def glyph (s : State) (k : Byte) : Vector Byte 8 :=
  if h : k.toNat < Config.cgSlots then
    Vector.ofFn fun l => cgRead s (slotLineIndex ⟨k.toNat, h⟩ l)
  else Config.glyphBitmap k

/-- The bit of a glyph line that pixel column `x` shows, 0 the left (R68, D15): one of the low
five. -/
def pixelBit (x : Fin 5) : Nat := if Config.leftmostBitIsFour then 4 - x.val else x.val

/-- The pixels of a glyph (R68): bit set is lit. -/
def glyphImage (g : Vector Byte 8) : CellImage :=
  Vector.ofFn fun y => Vector.ofFn fun x => (g.get y).getLsbD (pixelBit x)

/-- A cell with no lit pixel. -/
def unlitImage : CellImage := Vector.ofFn fun _ => Vector.ofFn fun _ => false

/-- The character code of a visible cell, row `r`, column `c` (R63). -/
def visibleCode (s : State) (r : Fin 2) (c : Fin 16) : Byte :=
  ddRead s (visibleIndex (BitVec.ofNat 1 r.val) (BitVec.ofNat 4 c.val))

/-- What a picture cell shows (R63, R64): its glyph where `D` = 1, nothing lit where `D` = 0. -/
def cellImage (s : State) (r : Fin 2) (c : Fin 16) : CellImage :=
  if s.displayOn then glyphImage (glyph s (visibleCode s r c)) else unlitImage

/-- The cell under the cursor, exactly when `C` = 1 and `D` = 1 (R65). -/
def cursorIndicator (s : State) : Option (BitVec 4 × BitVec 1) :=
  if s.cursorOn && s.displayOn then some (s.col, s.row) else none

/-- The picture of a state (R62 to R68). `B` has no part in it (R66). -/
def picture (s : State) : Picture where
  cells := Vector.ofFn fun r => Vector.ofFn fun c => cellImage s r c
  indicator := cursorIndicator s

end Sys2Proof.Machine
end

