-- ==== Sys2Proof/Machine/Signals.lean ====
section
/-! DEFINITION. The ports of R40 and the signal-level convention of R72, beside the transaction-level
step: an input sample performs at most one operation, and the outputs show the state before it. -/

namespace Sys2Proof.Machine

/-- The input ports (R40). -/
structure InPorts where
  reset : Bool
  wrValid : Bool
  wrRs : Bool
  wrDb : Byte
  rdRow : BitVec 1
  rdCol : BitVec 6
  cgAddr : BitVec 6
  deriving DecidableEq, Repr

/-- The output ports (R40). `rdData` is none where `rd_col` lies outside the domain of READ_CELL and
the port shows no defined value (R58; notes/assumptions/13.md). -/
structure OutPorts where
  rdData : Option Byte
  curCol : BitVec 4
  curRow : BitVec 1
  flags : BitVec 3
  cgData : Byte
  deriving DecidableEq, Repr

/-- What the output ports show: a function of the state and of the index inputs (R40). -/
def outPorts (p : InPorts) (s : State) : OutPorts where
  rdData := (readCellIndex p.rdRow p.rdCol).map (ddRead s)
  curCol := s.col
  curRow := s.row
  flags := flagBits s
  cgData := cgRead s (cgPortIndex p.cgAddr)

/-- The write-side request of an input sample: `reset` wins over `wr_valid`, and the transaction is
then discarded (R72, D19; notes/assumptions/13.md). -/
def portRequest (p : InPorts) : Option Request :=
  if p.reset then some .reset
  else if p.wrValid then some (.txn (txnWord p.wrRs p.wrDb))
  else none

/-- One input sample: the outputs of the state before, and the operation's outcome (R72). -/
def signalStep (p : InPorts) (s : State) : OutPorts × Host.Outcome State Fault Refusal :=
  (outPorts p s,
    match portRequest p with
    | some r => exec (decode r) s
    | none => .next s)

end Sys2Proof.Machine
end

