-- ==== Sys2Proof/Safety.lean ====
section
/-! DEFINITION. Runs, the domain of the operations, and the invariants claims are stated with
(R16 to R20, R89). -/

namespace Sys2Proof

open Machine

/-- A sequence of operations, one at a time, each on the state the one before left (R34, R89). -/
def runOps : List Instr → State → Host.Outcome State Fault Refusal
  | [], s => .next s
  | i :: rest, s =>
    match exec i s with
    | .next t => runOps rest t
    | .fault f => .fault f
    | .refused r => .refused r

/-- The first `n` operations of an infinite sequence (R89). -/
def firstOps (ops : Nat → Instr) (n : Nat) : List Instr := (List.range n).map ops

/-- An infinite run (R89): from the state after RESET, one operation of the sequence after another,
each completing, with no last one. `run n` is the state after the first `n` operations. -/
def InfiniteRun (ops : Nat → Instr) (run : Nat → State) : Prop :=
  run 0 = State.reset ∧ ∀ n, exec (ops n) (run n) = .next (run (n + 1))

/-- The host issues one request and the block performs it: one step with the request put at the head
of the host's line. A host that goes on without end issues each operation so
(notes/assumptions/1.md). -/
def issue (r : Request) (s : State) : Host.Outcome State Fault Refusal := step (presentNext s r)

/-- A state some sequence of operations after a RESET leaves (R20, R89). -/
def Reachable (s : State) : Prop := ∃ ops : List Instr, runOps ops State.reset = .next s

/-- The domain of an operation (R58, R69): READ_CELL on columns 0..39, every other operation on all
its operands. -/
def inDomain : Instr → Bool
  | .writeData _ => true
  | .clear => true
  | .home => true
  | .cmdIgnored00 => true
  | .cmdIgnored03 => true
  | .cmdIgnored04To07 _ => true
  | .cmdIgnored08To0F _ => true
  | .cmdIgnored10To1F _ => true
  | .cmdIgnored20To3F _ => true
  | .cmdIgnored40To7F _ => true
  | .cmdIgnored80ToFF _ => true
  | .reset => true
  | .readCell _ col => decide (col.toNat < Config.rowStride)
  | .readCursor => true
  | .readFlags => true
  | .readCgram _ => true

/-- The code of an ignored command (R56). -/
def ignoredCode : Instr → Option Byte
  | .writeData _ => none
  | .clear => none
  | .home => none
  | .cmdIgnored00 => some 0x00#8
  | .cmdIgnored03 => some 0x03#8
  | .cmdIgnored04To07 k => some k
  | .cmdIgnored08To0F k => some k
  | .cmdIgnored10To1F k => some k
  | .cmdIgnored20To3F k => some k
  | .cmdIgnored40To7F k => some k
  | .cmdIgnored80ToFF k => some k
  | .reset => none
  | .readCell _ _ => none
  | .readCursor => none
  | .readFlags => none
  | .readCgram _ => none

/-- One of the four reads (R31). -/
def isRead : Instr → Bool
  | .writeData _ => false
  | .clear => false
  | .home => false
  | .cmdIgnored00 => false
  | .cmdIgnored03 => false
  | .cmdIgnored04To07 _ => false
  | .cmdIgnored08To0F _ => false
  | .cmdIgnored10To1F _ => false
  | .cmdIgnored20To3F _ => false
  | .cmdIgnored40To7F _ => false
  | .cmdIgnored80ToFF _ => false
  | .reset => false
  | .readCell _ _ => true
  | .readCursor => true
  | .readFlags => true
  | .readCgram _ => true

/-- A WRITE_DATA (R52). -/
def isWriteData : Instr → Bool
  | .writeData _ => true
  | .clear => false
  | .home => false
  | .cmdIgnored00 => false
  | .cmdIgnored03 => false
  | .cmdIgnored04To07 _ => false
  | .cmdIgnored08To0F _ => false
  | .cmdIgnored10To1F _ => false
  | .cmdIgnored20To3F _ => false
  | .cmdIgnored40To7F _ => false
  | .cmdIgnored80ToFF _ => false
  | .reset => false
  | .readCell _ _ => false
  | .readCursor => false
  | .readFlags => false
  | .readCgram _ => false

/-- A hidden cell (R25): column 16..39 of its row. -/
def hiddenCell (i : DdIndex) : Bool := decide (Config.visibleCols ≤ i.val % Config.rowStride)

/-- Both memories have the canonical form and stay inside their spaces (R23). -/
def memoryWf (s : State) : Bool :=
  Memory.wf Config.space Config.ddramSize s.ddram &&
    Memory.wf Config.cgramReset Config.cgramSize s.cgram

/-- Hidden cells hold a space (R17). -/
abbrev HiddenSpaces (s : State) : Prop := ∀ i : DdIndex, hiddenCell i = true → ddRead s i = Config.space

/-- CGRAM is all zero (R18). -/
abbrev CgramZero (s : State) : Prop := ∀ j : CgIndex, cgRead s j = 0x00#8

/-- The flags are (1, 0, 0) (R19). -/
abbrev FlagsAtReset (s : State) : Prop :=
  s.displayOn = true ∧ s.cursorOn = false ∧ s.blinkOn = false

/-- What holds of every state of a run (R16 to R19). The cursor bounds of R16 are the widths of
`col` and `row`. -/
abbrev RunInv (s : State) : Prop :=
  memoryWf s = true ∧ HiddenSpaces s ∧ CgramZero s ∧ FlagsAtReset s

/-- The two states agree on the seven elements of R11: they are the same state of the block,
whatever the host has lined up and last read. -/
abbrev SameBlock (s t : State) : Prop :=
  s.ddram = t.ddram ∧ s.cgram = t.cgram ∧ s.col = t.col ∧ s.row = t.row ∧
    s.displayOn = t.displayOn ∧ s.cursorOn = t.cursorOn ∧ s.blinkOn = t.blinkOn

/-- A state with other flags. -/
def withFlags (s : State) (d c b : Bool) : State :=
  { s with displayOn := d, cursorOn := c, blinkOn := b }

end Sys2Proof
end

