-- ==== Sys2Proof/Certificates/Slice0/Obligations.lean ====
section
/-! DEFINITION. The statements about the model, from the numbered rules of spec/. Each docstring names
the rule it formalises; where a clause is the spec's or the model's own choice it says so. -/

open Sys2Proof Sys2Proof.Machine

/-! Decode and encode. -/

/-- R41, R43, R47, R50: what the host presents for a well-formed operation decodes to that
operation, for every operation and every value of its operands. -/
def Obligations.DecodeOfEncodeIsTheOperation : Prop :=
  ∀ i : Instr, i.wf = true → decode (encode i) = i

/-- R43, R46, R50: every request decodes to a well-formed operation, and encoding it gives the
request back, so no bit of a word is dropped. -/
def Obligations.EncodeOfDecodeIsTheRequest : Prop :=
  ∀ r : Request, (decode r).wf = true ∧ encode (decode r) = r

/-- R43, whole: RS first, then equality with 0x01 and 0x02, every other code ignored. -/
def Obligations.TransactionDecodeTestsRSFirst : Prop :=
  ∀ t : TxnWord,
    (t.getLsbD 8 = true → decode (.txn t) = .writeData (t.extractLsb' 0 8)) ∧
    (t.getLsbD 8 = false →
      (t.extractLsb' 0 8 = 0x01#8 → decode (.txn t) = .clear) ∧
      (t.extractLsb' 0 8 = 0x02#8 → decode (.txn t) = .home) ∧
      (t.extractLsb' 0 8 ≠ 0x01#8 → t.extractLsb' 0 8 ≠ 0x02#8 →
        ignoredCode (decode (.txn t)) = some (t.extractLsb' 0 8)))

/-- R44, R50, D24 and the opcode table: exactly one row of format TXN9 matches a word, and it is the
row of the operation the word decodes to. -/
def Obligations.OpcodeTableRowsPartitionTheWords : Prop :=
  ∀ t : TxnWord, txnRows.filter (rowMatches t) = (decode (.txn t)).row.toList

/-- 95_test_vectors.md section 2.1: words of that table, one at least for each row of format TXN9. -/
def Obligations.ListedWordsDecodeAsListed : Prop :=
  decode (.txn 0x000#9) = .cmdIgnored00 ∧ decode (.txn 0x001#9) = .clear ∧
  decode (.txn 0x002#9) = .home ∧ decode (.txn 0x003#9) = .cmdIgnored03 ∧
  decode (.txn 0x006#9) = .cmdIgnored04To07 0x06#8 ∧
  decode (.txn 0x00C#9) = .cmdIgnored08To0F 0x0C#8 ∧
  decode (.txn 0x018#9) = .cmdIgnored10To1F 0x18#8 ∧
  decode (.txn 0x038#9) = .cmdIgnored20To3F 0x38#8 ∧
  decode (.txn 0x07F#9) = .cmdIgnored40To7F 0x7F#8 ∧
  decode (.txn 0x081#9) = .cmdIgnored80ToFF 0x81#8 ∧
  decode (.txn 0x101#9) = .writeData 0x01#8 ∧ decode (.txn 0x1FF#9) = .writeData 0xFF#8

/-! The cursor and the indexes. -/

/-- R51, whole: the pseudocode's three cases, and the equivalent increment of the window position
modulo 32. -/
def Obligations.AdvanceWrapsAtColumnSixteen : Prop :=
  ∀ (c : BitVec 4) (r : BitVec 1),
    advance c r =
      (if c.toNat + 1 = 16 then (0#4, if r.toNat + 1 = 2 then 0#1 else 1#1) else (c + 1#4, r)) ∧
    (windowPos (advance c r).1 (advance c r).2).toNat = (r.toNat * 16 + c.toNat + 1) % 32

/-- R51, 95_test_vectors.md section 2.2: advance is one cycle through all 32 cursors: n advances
return to the cursor exactly when 32 divides n. -/
def Obligations.AdvanceIsOneCycleOfThirtyTwo : Prop :=
  ∀ (n : Nat) (c : BitVec 4) (r : BitVec 1),
    (fun p : BitVec 4 × BitVec 1 => advance p.1 p.2)^[n] (c, r) = (c, r) ↔ 32 ∣ n

/-- R16: the cursor is in bounds in every state, reached or not, and the cell under it is one of the
32 visible cells. -/
def Obligations.CursorIsInBoundsAndVisible : Prop :=
  ∀ s : State, s.col.toNat < 16 ∧ s.row.toNat < 2 ∧
    (cursorIndex s).val = s.row.toNat * 40 + s.col.toNat ∧
    ((cursorIndex s).val ≤ 15 ∨ 40 ≤ (cursorIndex s).val ∧ (cursorIndex s).val ≤ 55)

/-- R24: the cell at row r, column c is index r*40 + c, a bijection whose inverse is i div 40 and
i mod 40. -/
def Obligations.CellIndexIsABijection : Prop :=
  (∀ (r : BitVec 1) (c : Fin 40), (cellIndex r c).val = r.toNat * 40 + c.val) ∧
  (∀ i : DdIndex, ∃ (r : BitVec 1) (c : Fin 40),
    cellIndex r c = i ∧ r.toNat = i.val / 40 ∧ c.val = i.val % 40) ∧
  (∀ (r r' : BitVec 1) (c c' : Fin 40), cellIndex r c = cellIndex r' c' → r = r' ∧ c = c')

/-- R26, the spec's own choice D8 (notes/assumptions/11.md): line l of slot k is CGRAM index
k*8 + l, a bijection with 0..63. -/
def Obligations.GlyphLineIndexIsABijection : Prop :=
  (∀ (k l : Fin 8), (slotLineIndex k l).val = k.val * 8 + l.val) ∧
  (∀ j : CgIndex, ∃ (k l : Fin 8), slotLineIndex k l = j) ∧
  (∀ (k k' l l' : Fin 8), slotLineIndex k l = slotLineIndex k' l' → k = k' ∧ l = l')

/-- R25: the visible cells are the indexes 0..15 and 40..55, the hidden ones 16..39 and 56..79. -/
def Obligations.VisibleWindowIndexes : Prop :=
  ∀ i : DdIndex,
    ((∃ (r : BitVec 1) (c : BitVec 4), visibleIndex r c = i) ↔
      i.val ≤ 15 ∨ 40 ≤ i.val ∧ i.val ≤ 55) ∧
    (hiddenCell i = true ↔ 16 ≤ i.val ∧ i.val ≤ 39 ∨ 56 ≤ i.val ∧ i.val ≤ 79)

/-- R27, R23: a write is read back at its index, leaves every other index alone, and leaves the
other space alone. -/
def Obligations.SpaceWritesAreReadBack : Prop :=
  (∀ (s : State) (i k : DdIndex) (v : Byte),
    ddRead (ddWrite s i v) k = (if k = i then v else ddRead s k)) ∧
  (∀ (s : State) (j k : CgIndex) (v : Byte),
    cgRead (cgWrite s j v) k = (if k = j then v else cgRead s k)) ∧
  (∀ (s : State) (i : DdIndex) (v : Byte), (ddWrite s i v).cgram = s.cgram) ∧
  (∀ (s : State) (j : CgIndex) (v : Byte), (cgWrite s j v).ddram = s.ddram)

/-! The operations: what each does and what it leaves unchanged. -/

/-- R52: word 0x100 + b, the store at ROW*40 + COL, the advance, and the frame: every other cell,
CGRAM and the flags are unchanged, for every byte and every state. The clauses on pending and answer
are not R52's: those fields and that a write leaves them alone are the model's own choice
(notes/assumptions/1.md, 2.md). -/
def Obligations.WriteDataStoresAndAdvances : Prop :=
  ∀ (b : Byte) (s : State),
    decode (.txn (BitVec.ofNat 9 (0x100 + b.toNat))) = .writeData b ∧
    ∃ t, exec (.writeData b) s = .next t ∧
      (cursorIndex s).val = s.row.toNat * 40 + s.col.toNat ∧
      ddRead t (cursorIndex s) = b ∧
      (∀ k : DdIndex, k ≠ cursorIndex s → ddRead t k = ddRead s k) ∧
      (t.col, t.row) = advance s.col s.row ∧
      t.cgram = s.cgram ∧
      t.displayOn = s.displayOn ∧ t.cursorOn = s.cursorOn ∧ t.blinkOn = s.blinkOn ∧
      t.pending = s.pending ∧ t.answer = s.answer

/-- R52, last corner case: n writes from window position p leave the cursor at (p + n) mod 32; the
last 32 bytes survive at p, p+1, ... mod 32 in order; visible cells the run does not reach, hidden
cells and everything else are unchanged. The clauses on pending and answer are the model's own choice
(notes/assumptions/1.md, 2.md), not R52's. -/
def Obligations.ConsecutiveWritesFillTheRing : Prop :=
  ∀ (bs : List Byte) (s : State),
    ∃ t, runOps (bs.map .writeData) s = .next t ∧
      (windowPos t.col t.row).toNat = ((windowPos s.col s.row).toNat + bs.length) % 32 ∧
      (∀ (k : Nat) (hk : k < bs.length) (r : BitVec 1) (c : BitVec 4),
        bs.length ≤ k + 32 →
        (windowPos c r).toNat = ((windowPos s.col s.row).toNat + k) % 32 →
        ddRead t (visibleIndex r c) = bs[k]) ∧
      (∀ (r : BitVec 1) (c : BitVec 4),
        (∀ k < bs.length, (windowPos c r).toNat ≠ ((windowPos s.col s.row).toNat + k) % 32) →
        ddRead t (visibleIndex r c) = ddRead s (visibleIndex r c)) ∧
      (∀ i : DdIndex, hiddenCell i = true → ddRead t i = ddRead s i) ∧
      t.cgram = s.cgram ∧
      t.displayOn = s.displayOn ∧ t.cursorOn = s.cursorOn ∧ t.blinkOn = s.blinkOn ∧
      t.pending = s.pending ∧ t.answer = s.answer

/-- R54: word 0x001, all 80 cells to 0x20, the cursor to (0, 0), whatever the state before; CGRAM and
the flags unchanged. The clauses on pending and answer are the model's own choice
(notes/assumptions/1.md, 2.md), not R54's. -/
def Obligations.ClearFillsDisplayAndHomes : Prop :=
  decode (.txn 0x001#9) = .clear ∧
  ∀ s : State, ∃ t, exec .clear s = .next t ∧
    (∀ i : DdIndex, ddRead t i = 0x20#8) ∧ t.col = 0#4 ∧ t.row = 0#1 ∧
    t.cgram = s.cgram ∧
    t.displayOn = s.displayOn ∧ t.cursorOn = s.cursorOn ∧ t.blinkOn = s.blinkOn ∧
    t.pending = s.pending ∧ t.answer = s.answer

/-- R55: word 0x002, the cursor to (0, 0), everything else unchanged. The clauses on pending and
answer are the model's own choice (notes/assumptions/1.md, 2.md), not R55's. -/
def Obligations.HomeMovesOnlyTheCursor : Prop :=
  decode (.txn 0x002#9) = .home ∧
  ∀ s : State, ∃ t, exec .home s = .next t ∧
    t.col = 0#4 ∧ t.row = 0#1 ∧
    t.ddram = s.ddram ∧ (∀ i : DdIndex, ddRead t i = ddRead s i) ∧ t.cgram = s.cgram ∧
    t.displayOn = s.displayOn ∧ t.cursorOn = s.cursorOn ∧ t.blinkOn = s.blinkOn ∧
    t.pending = s.pending ∧ t.answer = s.answer

/-- R56: each of the eight ignored operations, and every word 0x000 and 0x003 to 0x0FF, is the
identity transition on every state. -/
def Obligations.IgnoredCommandsChangeNothing : Prop :=
  (∀ s : State, exec .cmdIgnored00 s = .next s ∧ exec .cmdIgnored03 s = .next s) ∧
  (∀ (k : Byte) (s : State),
    exec (.cmdIgnored04To07 k) s = .next s ∧ exec (.cmdIgnored08To0F k) s = .next s ∧
    exec (.cmdIgnored10To1F k) s = .next s ∧ exec (.cmdIgnored20To3F k) s = .next s ∧
    exec (.cmdIgnored40To7F k) s = .next s ∧ exec (.cmdIgnored80ToFF k) s = .next s) ∧
  (∀ (k : Byte) (s : State), k ≠ 0x01#8 → k ≠ 0x02#8 →
    ignoredCode (decode (.txn (BitVec.ofNat 9 k.toNat))) = some k ∧
    exec (decode (.txn (BitVec.ofNat 9 k.toNat))) s = .next s)

/-- R58: inside 2 by 40 the cell at index r*40 + c is answered and nothing else changes; for
`rd_col` in 40..63 the read is refused, with no neighbouring cell. The domain 0..39 is the spec's own
decision D7, and the refusal follows U2 (notes/assumptions/6.md); that the result stands in answer is
the model's choice (notes/assumptions/2.md). -/
def Obligations.ReadCellAnswersOrRefuses : Prop :=
  ∀ (s : State) (r : BitVec 1) (c : BitVec 6),
    (c.toNat ≤ 39 → ∃ i : DdIndex, i.val = r.toNat * 40 + c.toNat ∧
      exec (.readCell r c) s = .next { s with answer := some (.cell (ddRead s i)) }) ∧
    (40 ≤ c.toNat → exec (.readCell r c) s = .refused .readCellOutsideDomain)

/-- R59: the cursor is answered, column first, and nothing else changes. That the result stands in
answer is the model's choice (notes/assumptions/2.md). -/
def Obligations.ReadCursorAnswersColumnThenRow : Prop :=
  ∀ s : State, exec .readCursor s = .next { s with answer := some (.cursor s.col s.row) }

/-- R60: the three flags are answered as one value, D in bit 2, C in bit 1, B in bit 0 (the spec's own
decision D9), and nothing else changes. That the result stands in answer is the model's choice
(notes/assumptions/2.md). -/
def Obligations.ReadFlagsAnswersPackedFlags : Prop :=
  ∀ s : State, ∃ f : BitVec 3,
    exec .readFlags s = .next { s with answer := some (.flags f) } ∧
    f.getLsbD 2 = s.displayOn ∧ f.getLsbD 1 = s.cursorOn ∧ f.getLsbD 0 = s.blinkOn

/-- R61: the byte of CGRAM at the port's index is answered, for every value of the port, and nothing
else changes. READ_CGRAM is the spec's own addition, decision D8 (notes/assumptions/11.md); that the
result stands in answer is the model's choice (notes/assumptions/2.md). -/
def Obligations.ReadCgramAnswersItsByte : Prop :=
  ∀ (s : State) (p : BitVec 6), ∃ j : CgIndex, j.val = p.toNat ∧
    exec (.readCgram p) s = .next { s with answer := some (.cgram (cgRead s j)) }

/-- R82: RESET puts every element of the block's state at its reset value, whatever came before. The
last clause, that pending and answer stay as they were, is the model's own choice
(notes/assumptions/1.md, 2.md), not R82's. -/
def Obligations.ResetSetsEveryElement : Prop :=
  ∀ s : State, ∃ t, exec .reset s = .next t ∧
    (∀ i : DdIndex, ddRead t i = 0x20#8) ∧ (∀ j : CgIndex, cgRead t j = 0x00#8) ∧
    t.col = 0#4 ∧ t.row = 0#1 ∧
    t.displayOn = true ∧ t.cursorOn = false ∧ t.blinkOn = false ∧
    t = { State.reset with pending := s.pending, answer := s.answer }

/-- R21: the values of the state after RESET. -/
def Obligations.ResetStateHoldsTheListedValues : Prop :=
  (∀ i : DdIndex, ddRead State.reset i = 0x20#8) ∧
  (∀ j : CgIndex, cgRead State.reset j = 0x00#8) ∧
  State.reset.col = 0#4 ∧ State.reset.row = 0#1 ∧
  State.reset.displayOn = true ∧ State.reset.cursorOn = false ∧ State.reset.blinkOn = false

/-! Laws of several operations together. -/

/-- R54, R55, R82: CLEAR, HOME and RESET are idempotent, and CLEAR; HOME is CLEAR. -/
def Obligations.ClearHomeResetAreIdempotent : Prop :=
  (∀ s t : State, exec .clear s = .next t → exec .clear t = .next t ∧ exec .home t = .next t) ∧
  (∀ s t : State, exec .home s = .next t → exec .home t = .next t) ∧
  (∀ s t : State, exec .reset s = .next t →
    exec .reset t = .next t ∧ exec .clear t = .next t ∧ exec .home t = .next t)

/-- R54: in every state that the run invariant admits CLEAR leaves what RESET leaves, and yet they are
different operations: some representable state tells them apart. The canonical form of the memories,
which the invariant holds, is the model's own (notes/assumptions/8.md). -/
def Obligations.ClearEqualsResetOnlyInsideTheInvariant : Prop :=
  (∀ s : State, RunInv s → exec .clear s = exec .reset s) ∧
  (∃ s : State, memoryWf s = true ∧ exec .clear s ≠ exec .reset s)

/-- R28, R34: a stored byte is read back bit for bit at the cell that was under the cursor, and every
other cell reads as before. That the results stand in answer is the model's choice
(notes/assumptions/2.md). -/
def Obligations.WrittenByteIsReadBack : Prop :=
  ∀ (b : Byte) (s t : State) (r : BitVec 1) (c : BitVec 6),
    exec (.writeData b) s = .next t → c.toNat ≤ 39 →
    ∃ u v : State,
      exec (.readCell r c) t = .next u ∧ exec (.readCell r c) s = .next v ∧
      u.answer = (if r = s.row ∧ c.toNat = s.col.toNat then some (.cell b) else v.answer)

/-- R31: a read that answers changes no element of the block's state, and the same read again gives
the same answer. That it leaves the host's line alone is about the model's own field pending
(notes/assumptions/1.md), and that the result stands in answer is the model's choice
(notes/assumptions/2.md). -/
def Obligations.ReadsChangeNothingAndRepeat : Prop :=
  ∀ (i : Instr) (s t : State), isRead i = true → exec i s = .next t →
    SameBlock s t ∧ t.pending = s.pending ∧ exec i t = .next t

/-- R15, the writes of its table: an operation that completes leaves alone every element its row does
not write. The last two clauses, that answer changes only by a read and pending by nothing, are not in
R15's table: they are the model's own choice (notes/assumptions/1.md, 2.md). -/
def Obligations.OnlyListedOperationsWrite : Prop :=
  ∀ (i : Instr) (s t : State), exec i s = .next t →
    (i ≠ .reset → i ≠ .clear → isWriteData i = false → t.ddram = s.ddram) ∧
    (i ≠ .reset → t.cgram = s.cgram) ∧
    (i ≠ .reset → i ≠ .clear → i ≠ .home → isWriteData i = false →
      t.col = s.col ∧ t.row = s.row) ∧
    (i ≠ .reset →
      t.displayOn = s.displayOn ∧ t.cursorOn = s.cursorOn ∧ t.blinkOn = s.blinkOn) ∧
    (isRead i = false → t.answer = s.answer) ∧ t.pending = s.pending

/-- R9, R57: the cursor stays, or WRITE_DATA advances it, or CLEAR, HOME or RESET puts it at (0, 0);
no operation puts it anywhere else. -/
def Obligations.CursorMovesOnlyAsListed : Prop :=
  ∀ (i : Instr) (s t : State), exec i s = .next t →
    if isWriteData i = true then (t.col, t.row) = advance s.col s.row
    else if i = .clear ∨ i = .home ∨ i = .reset then t.col = 0#4 ∧ t.row = 0#1
    else t.col = s.col ∧ t.row = s.row

/-- R10, D23: the flags gate nothing. Every operation but RESET and READ_FLAGS does the same
whatever the flags are and carries them along unchanged; what is refused is refused whatever they
are. -/
def Obligations.FlagsGateNothing : Prop :=
  ∀ (i : Instr) (s : State) (d c b : Bool), i ≠ .reset → i ≠ .readFlags →
    (∀ t, exec i s = .next t → exec i (withFlags s d c b) = .next (withFlags t d c b)) ∧
    (∀ e, exec i s = .refused e → exec i (withFlags s d c b) = .refused e)

/-- R69, R87: every operation in its domain completes in every state; outside it (READ_CELL, columns
40..63) it is refused; nothing ever faults. -/
def Obligations.EveryOperationInItsDomainCompletes : Prop :=
  ∀ (i : Instr) (s : State),
    (∀ f, exec i s ≠ .fault f) ∧
    (if inDomain i = true then ∃ t, exec i s = .next t
      else exec i s = .refused .readCellOutsideDomain)

/-- 95_test_vectors.md section 3: a run of data writes, ignored commands and reads moves the cursor by
the number of data writes, modulo 32. -/
def Obligations.CursorCountsTheDataWrites : Prop :=
  ∀ (ops : List Instr) (s t : State),
    (∀ i ∈ ops, isWriteData i = true ∨ isRead i = true ∨ (ignoredCode i).isSome = true) →
    runOps ops s = .next t →
    (windowPos t.col t.row).toNat =
      ((windowPos s.col s.row).toNat + (ops.filter isWriteData).length) % 32

/-- R22, R79: an operation on one instance of several leaves the others alone and does to that one
what it does to it alone. -/
def Obligations.InstancesShareNothing : Prop :=
  ∀ (bank bank' : List State) (n : Fin bank.length) (i : Instr),
    operateOn bank n i = .next bank' →
    bank'.length = bank.length ∧
    (∀ m : Nat, m ≠ n.val → bank'[m]? = bank[m]?) ∧
    ∃ t, exec i (bank.get n) = .next t ∧ bank'[n.val]? = some t

/-! The step and runs. -/

/-- R5, R6, R34: when the host's next request is that of a well-formed operation, step takes it from
the host's line and is exec of that operation; whatever the request, step is exec of what it decodes
to; with nothing pending nothing changes (notes/assumptions/1.md and 3.md are the model's own
choices). -/
def Obligations.StepRunsTheDecodedOperation : Prop :=
  (∀ (i : Instr) (s : State) (rest : List Request), i.wf = true →
    s.pending = encode i :: rest → step s = exec i { s with pending := rest }) ∧
  (∀ (r : Request) (s : State) (rest : List Request),
    s.pending = r :: rest → step s = exec (decode r) { s with pending := rest }) ∧
  (∀ s : State, s.pending = [] → step s = .next s)

/-- The model's own convention (notes/assumptions/7.md) for the table's words: a 9-bit word of the
table placed for the next step is what that step executes, on the state as it was. -/
def Obligations.PlacedTableWordRunsNext : Prop :=
  ∀ (s : State) (t : TxnWord),
    decodeTableWord 16 t.toNat = some (decode (.txn t)) ∧
    step (s.withFetchWord 16 t.toNat) = exec (decode (.txn t)) s

/-- R34, R89: stepping the machine over the requests of a sequence of well-formed operations gives
what the operations give one after another. That the host's operations wait in pending, and that the
rest of the line is left untouched, is the model's own choice (notes/assumptions/1.md), not the
rules'. -/
def Obligations.StepsTakeOperationsInOrder : Prop :=
  ∀ (ops : List Instr) (s : State) (rest : List Request),
    (∀ i ∈ ops, i.wf = true) → s.pending = ops.map encode ++ rest →
    Sys2Proof.core.run ops.length s = runOps ops { s with pending := rest }

/-- R89, R69, R87: a run may go on for ever. Every infinite sequence of operations in their domains has
one infinite run from the state after RESET and no other, and its states are what the finite runs of
the sequence's first operations leave, so each of them is a state in which the run may end. -/
def Obligations.InfiniteSequencesHaveOneInfiniteRun : Prop :=
  (∀ ops : Nat → Instr, (∀ n, inDomain (ops n) = true) → ∃! run, InfiniteRun ops run) ∧
  (∀ (ops : Nat → Instr) (run : Nat → State), InfiniteRun ops run →
    ∀ n, runOps (firstOps ops n) State.reset = .next (run n) ∧ Reachable (run n))

/-- R34, R89: a host that goes on without end, issuing one operation of an infinite run after another,
drives the machine's step through that run: each issued operation is one step from one state of the
run to the next. That an operation is issued through the head of pending is the model's own choice
(notes/assumptions/1.md). -/
def Obligations.StepFollowsAnInfiniteRun : Prop :=
  ∀ (ops : Nat → Instr) (run : Nat → State),
    InfiniteRun ops run → (∀ n, (ops n).wf = true) →
    ∀ n, issue (encode (ops n)) (run n) = .next (run (n + 1))

/-- Every step keeps the canonical form of both memories, from every state that has it. The form is the
model's own (notes/assumptions/8.md): addresses rising, no entry equal to the unlisted value. R23 and
R27 give only the index ranges it stays inside. -/
def Obligations.StepKeepsMemoryCanonical : Prop :=
  ∀ s t : State, memoryWf s = true → step s = .next t → memoryWf t = true

/-- R17, R18, R19: every step keeps each of the three run invariants on its own, from every state that
has it, reached or not. -/
def Obligations.StepKeepsRunInvariants : Prop :=
  ∀ s t : State, step s = .next t →
    (HiddenSpaces s → HiddenSpaces t) ∧ (CgramZero s → CgramZero t) ∧
    (FlagsAtReset s → FlagsAtReset t)

/-- R17, R18, R19, R21: the run invariant holds of the state after RESET. Its clause on the canonical
form of the memories is the model's own (notes/assumptions/8.md). -/
def Obligations.ResetStateMeetsTheInvariant : Prop := RunInv State.reset

/-- R17, R18, R19, each of which the spec marks as derived by itself: in every state a run from RESET
reaches, hidden cells hold 0x20, CGRAM is zero and the flags are (1, 0, 0). -/
def Obligations.ReachedStatesKeepHiddenCellsCgramAndFlags : Prop :=
  ∀ s : State, Reachable s →
    (∀ i : DdIndex, (16 ≤ i.val ∧ i.val ≤ 39) ∨ (56 ≤ i.val ∧ i.val ≤ 79) →
      ddRead s i = 0x20#8) ∧
    (∀ j : CgIndex, cgRead s j = 0x00#8) ∧
    s.displayOn = true ∧ s.cursorOn = false ∧ s.blinkOn = false

/-- R20: the states of the block that runs from RESET reach are exactly those with CGRAM zero, flags
(1, 0, 0), hidden cells 0x20, any bytes in the visible cells and any cursor. The canonical form of the
memories, by which a state is one list, is the model's own (notes/assumptions/8.md). -/
def Obligations.ReachedStatesAreExactlyTheInvariantOnes : Prop :=
  ∀ s : State, (∃ s' : State, Reachable s' ∧ SameBlock s' s) ↔ RunInv s

/-- R58, R60, R61, what they derive for reached states: columns 16..39 read 0x20, the flags read
0b100, CGRAM reads 0x00. That the results stand in answer is the model's choice
(notes/assumptions/2.md). -/
def Obligations.ReachedStatesAnswerTheDerivedValues : Prop :=
  ∀ s : State, Reachable s →
    (∀ (r : BitVec 1) (c : BitVec 6), 16 ≤ c.toNat → c.toNat ≤ 39 →
      exec (.readCell r c) s = .next { s with answer := some (.cell 0x20#8) }) ∧
    exec .readFlags s = .next { s with answer := some (.flags 0b100#3) } ∧
    (∀ p : BitVec 6, exec (.readCgram p) s = .next { s with answer := some (.cgram 0x00#8) })

/-! The ports and the observer. -/

/-- R40 and the spec's own convention R72 (D19): reset wins over a transaction; a transaction is
decoded and executed; with neither nothing changes; the outputs show the state before. -/
def Obligations.SignalStepLetsResetWin : Prop :=
  ∀ (p : InPorts) (s : State),
    (signalStep p s).1 = outPorts p s ∧
    (p.reset = true → (signalStep p s).2 = exec .reset s) ∧
    (p.reset = false → p.wrValid = true →
      (signalStep p s).2 = exec (decode (.txn (BitVec.ofBool p.wrRs ++ p.wrDb))) s) ∧
    (p.reset = false → p.wrValid = false → (signalStep p s).2 = .next s)

/-- R40, R58 to R61: the output ports show what the reads answer; where READ_CELL is refused the data
port shows no defined value (notes/assumptions/13.md). That the results stand in answer is the model's
choice (notes/assumptions/2.md). -/
def Obligations.PortsShowWhatReadsAnswer : Prop :=
  ∀ (p : InPorts) (s : State),
    (if p.rdCol.toNat ≤ 39 then
      ∃ b, (outPorts p s).rdData = some b ∧
        exec (.readCell p.rdRow p.rdCol) s = .next { s with answer := some (.cell b) }
      else (outPorts p s).rdData = none) ∧
    exec .readCursor s =
      .next { s with answer := some (.cursor (outPorts p s).curCol (outPorts p s).curRow) } ∧
    exec .readFlags s = .next { s with answer := some (.flags (outPorts p s).flags) } ∧
    exec (.readCgram p.cgAddr) s = .next { s with answer := some (.cgram (outPorts p s).cgData) }

/-- R63, R64: with D = 1 the picture's cell at row r, column c shows the glyph of the code at index
r*40 + c; with D = 0 no pixel is lit anywhere and no cursor indicator is drawn. -/
def Obligations.PictureShowsGlyphsUnlessDisplayIsOff : Prop :=
  ∀ s : State,
    (s.displayOn = true → ∀ (r : Fin 2) (c : Fin 16), ∃ i : DdIndex, i.val = r.val * 40 + c.val ∧
      ((picture s).cells.get r).get c = glyphImage (glyph s (ddRead s i))) ∧
    (s.displayOn = false → (picture s).indicator = none ∧
      ∀ (r : Fin 2) (c : Fin 16) (y : Fin 8) (x : Fin 5),
        ((((picture s).cells.get r).get c).get y).get x = false)

/-- R65: the indicator is drawn at the cursor cell exactly when C = 1 and D = 1, and in no state a run
from RESET reaches. -/
def Obligations.CursorIndicatorNeedsBothFlags : Prop :=
  (∀ (s : State) (c : BitVec 4) (r : BitVec 1), (picture s).indicator = some (c, r) ↔
    s.cursorOn = true ∧ s.displayOn = true ∧ c = s.col ∧ r = s.row) ∧
  (∀ s : State, Reachable s → (picture s).indicator = none)

/-- R66, which the spec marks as its own decision D11: B has no effect on the picture nor on anything a
completing operation does, but for RESET, which writes it, and READ_FLAGS, which answers it. Those two
have their own statements (ResetSetsEveryElement, ReadFlagsAnswersPackedFlags), and so have the
operations that are refused (FlagsGateNothing). -/
def Obligations.BlinkHasNoEffect : Prop :=
  ∀ (s : State) (b : Bool),
    picture { s with blinkOn := b } = picture s ∧
    (∀ (i : Instr) (t : State), i ≠ .reset → i ≠ .readFlags → exec i s = .next t →
      exec i { s with blinkOn := b } = .next { t with blinkOn := b })

/-- R67: codes 0 to 7 take their 8 lines from CGRAM slot k, the others from the font; in a state with
CGRAM zero, and so in every state of a run, the glyph of a code below 8 has no lit pixel. The font is
uninterpreted (D25). -/
def Obligations.GlyphComesFromCgramBelowEight : Prop :=
  (∀ (s : State) (k : Byte) (l : Fin 8), k.toNat < 8 →
    ∃ j : CgIndex, j.val = k.toNat * 8 + l.val ∧ (glyph s k).get l = cgRead s j) ∧
  (∀ (s : State) (k : Byte), 8 ≤ k.toNat → glyph s k = Config.glyphBitmap k) ∧
  (∀ (s : State) (k : Byte) (y : Fin 8) (x : Fin 5), Reachable s → k.toNat < 8 →
    ((glyphImage (glyph s k)).get y).get x = false)

/-- R68, with the spec's own choices of D15: line y of a glyph is byte y, its five pixels are the low
five bits in one of the two orders, and bits 7..5 are not used. -/
def Obligations.GlyphPixelsAreTheLowFiveBits : Prop :=
  ((∀ (g : Vector Byte 8) (y : Fin 8) (x : Fin 5),
      ((glyphImage g).get y).get x = (g.get y).getLsbD (4 - x.val)) ∨
    (∀ (g : Vector Byte 8) (y : Fin 8) (x : Fin 5),
      ((glyphImage g).get y).get x = (g.get y).getLsbD x.val)) ∧
  (∀ g g' : Vector Byte 8, (∀ (y : Fin 8) (n : Nat), n < 5 →
    (g.get y).getLsbD n = (g'.get y).getLsbD n) → glyphImage g = glyphImage g')

/-- R62, R63: the picture depends only on what the reads of the visible window, the cursor, the flags
and CGRAM answer; no hidden cell and nothing else can show in it. -/
def Obligations.PictureDependsOnlyOnWhatReadsAnswer : Prop :=
  ∀ s t : State,
    (∀ (r : BitVec 1) (c : BitVec 4), ddRead s (visibleIndex r c) = ddRead t (visibleIndex r c)) →
    (∀ j : CgIndex, cgRead s j = cgRead t j) →
    s.col = t.col → s.row = t.row → s.displayOn = t.displayOn → s.cursorOn = t.cursorOn →
    picture s = picture t

/-- R48: PRINT is one DATA for each character in order, and nothing for the empty string. R47, the
spec's own choice D18: CMD k is CLEAR, HOME or an ignored command by its code. R49: a text event issues
the same operations as PRINT of its characters, Ctrl+C CLEAR, Ctrl+H HOME, and the events that end the
loop none. Characters are given by their codes (notes/assumptions/17.md). -/
def Obligations.PrintAndEventsExpandToOperations : Prop :=
  asmOperations (.print []) = [] ∧
  (∀ (b : Byte) (cs : List Byte),
    asmOperations (.print (b :: cs)) = .writeData b :: asmOperations (.print cs)) ∧
  (∀ k : Byte, asmOperations (.cmd k) = [decode (.txn (BitVec.ofNat 9 k.toNat))]) ∧
  (∀ cs : List Byte, eventOperations (.text cs) = asmOperations (.print cs)) ∧
  eventOperations .ctrlC = asmOperations .clear ∧ eventOperations .ctrlH = asmOperations .home ∧
  eventOperations .escape = [] ∧ eventOperations .windowClose = []
end

