-- ==== Sys2Proof/Laws/Memory.lean ====
section
/-! SUPPORT. The laws of a memory: a write is read back and leaves every other address alone, every
operation keeps the canonical form, and two canonical memories that read the same are the same. -/

namespace Sys2Proof.Laws.Memory

open Sys2Proof.Machine

variable {u : Byte} {m m' : Memory} {a i size : Nat} {v : Byte}

theorem read_of_not_mem (h : ∀ cell ∈ m, cell.1 ≠ i) : Memory.read u m i = u := by
  induction m with
  | nil => rfl
  | cons cell rest ih =>
    obtain ⟨x, b⟩ := cell
    have hx : x ≠ i := h (x, b) (by simp)
    simp only [Memory.read, hx, if_false]
    exact ih fun c hc => h c (by simp [hc])

theorem read_filter (m : Memory) :
    Memory.read u (m.filter fun cell => cell.1 != a) i =
      if i = a then u else Memory.read u m i := by
  split
  · next h =>
    subst h
    exact read_of_not_mem fun c hc => by simpa using (List.mem_filter.1 hc).2
  · next h =>
    induction m with
    | nil => rfl
    | cons cell rest ih =>
      obtain ⟨x, b⟩ := cell
      by_cases hx : x = a
      · have hxi : x ≠ i := fun e => h (e ▸ hx)
        rw [List.filter_cons_of_neg (by simpa using hx)]
        simp [Memory.read, ih, hxi]
      · rw [List.filter_cons_of_pos (by simpa using hx)]
        simp [Memory.read, ih]

theorem read_insert (h : ∀ cell ∈ m, cell.1 ≠ a) :
    Memory.read u (Memory.insert a v m) i = if i = a then v else Memory.read u m i := by
  induction m with
  | nil => simp [Memory.insert, Memory.read, eq_comm]
  | cons cell rest ih =>
    obtain ⟨x, b⟩ := cell
    have hx : x ≠ a := h (x, b) (by simp)
    have ih := ih fun c hc => h c (by simp [hc])
    by_cases hlt : a < x
    · by_cases hi : i = a
      · simp [Memory.insert, hlt, Memory.read, hi]
      · simp [Memory.insert, hlt, Memory.read, hi, Ne.symm hi]
    · by_cases hi : i = a
      · subst hi
        simp [Memory.insert, hlt, Memory.read, hx, ih]
      · simp [Memory.insert, hlt, Memory.read, hi, ih]

/-- A read after a write (R27): the value written at its address, the old value elsewhere. -/
theorem read_write (m : Memory) :
    Memory.read u (Memory.write u m a v) i = if i = a then v else Memory.read u m i := by
  unfold Memory.write
  split
  · next h => rw [read_filter]; simp [h]
  · next h =>
    rw [read_insert fun c hc => by simpa using (List.mem_filter.1 hc).2, read_filter]
    by_cases hi : i = a <;> simp [hi]

theorem mem_insert {cell : Host.Cell} :
    cell ∈ Memory.insert a v m ↔ cell = (a, v) ∨ cell ∈ m := by
  induction m with
  | nil => simp [Memory.insert]
  | cons c rest ih =>
    obtain ⟨x, b⟩ := c
    by_cases hlt : a < x
    · simp [Memory.insert, hlt]
    · simp only [Memory.insert, hlt, if_false, List.mem_cons, ih]
      tauto

/-- The canonical form, as a proposition. -/
theorem wf_iff : Memory.wf u size m = true ↔
    (m.Pairwise fun x y => x.1 < y.1) ∧ ∀ cell ∈ m, cell.1 < size ∧ cell.2 ≠ u := by
  simp [Memory.wf]

theorem pairwise_insert (h : m.Pairwise fun x y => x.1 < y.1) (ha : ∀ cell ∈ m, cell.1 ≠ a) :
    (Memory.insert a v m).Pairwise fun x y => x.1 < y.1 := by
  induction m with
  | nil => simp [Memory.insert]
  | cons c rest ih =>
    obtain ⟨x, b⟩ := c
    obtain ⟨hx, hrest⟩ := List.pairwise_cons.1 h
    have hxa : x ≠ a := ha (x, b) (by simp)
    by_cases hlt : a < x
    · simp only [Memory.insert, hlt, if_true]
      refine List.pairwise_cons.2 ⟨fun c hc => ?_, h⟩
      rcases List.mem_cons.1 hc with rfl | hc
      · exact hlt
      · exact hlt.trans (hx c hc)
    · simp only [Memory.insert, hlt, if_false]
      refine List.pairwise_cons.2 ⟨fun c hc => ?_, ih hrest fun c hc => ha c (by simp [hc])⟩
      rcases mem_insert.1 hc with rfl | hc
      · exact (Nat.lt_or_gt_of_ne hxa).resolve_right hlt
      · exact hx c hc

/-- A write inside the space keeps the canonical form. -/
theorem wf_write (h : Memory.wf u size m = true) (ha : a < size) :
    Memory.wf u size (Memory.write u m a v) = true := by
  obtain ⟨hs, hb⟩ := wf_iff.1 h
  have hs' : (m.filter fun cell => cell.1 != a).Pairwise fun x y => x.1 < y.1 := hs.filter _
  have hb' : ∀ cell ∈ m.filter (fun cell => cell.1 != a), cell.1 < size ∧ cell.2 ≠ u :=
    fun c hc => hb c (List.mem_filter.1 hc).1
  unfold Memory.write
  split
  · exact wf_iff.2 ⟨hs', hb'⟩
  · next hv =>
    refine wf_iff.2 ⟨pairwise_insert hs' fun c hc => by simpa using (List.mem_filter.1 hc).2, ?_⟩
    intro c hc
    rcases mem_insert.1 hc with rfl | hc
    · exact ⟨ha, hv⟩
    · exact hb' c hc

theorem read_foldl_write (addrs : List Nat) (m : Memory) :
    Memory.read u (addrs.foldl (fun m a => Memory.write u m a v) m) i =
      if i ∈ addrs then v else Memory.read u m i := by
  induction addrs generalizing m with
  | nil => simp
  | cons a rest ih =>
    rw [List.foldl_cons, ih, read_write]
    by_cases h1 : i ∈ rest <;> by_cases h2 : i = a <;> simp [h1, h2]

/-- Every address of a filled memory reads the fill value. -/
theorem read_fill : Memory.read u (Memory.fill u size v) i = if i < size then v else u := by
  simp [Memory.fill, read_foldl_write, Memory.read]

/-- A filled memory has the canonical form. -/
theorem wf_fill : Memory.wf u size (Memory.fill u size v) = true := by
  have key : ∀ (addrs : List Nat) (m : Memory), (∀ a ∈ addrs, a < size) →
      Memory.wf u size m = true →
      Memory.wf u size (addrs.foldl (fun m a => Memory.write u m a v) m) = true := by
    intro addrs
    induction addrs with
    | nil => exact fun m _ hm => hm
    | cons a rest ih =>
      exact fun m ha hm => ih _ (fun b hb => ha b (by simp [hb])) (wf_write hm (ha a (by simp)))
  exact key _ _ (fun a ha => List.mem_range.1 ha) (by simp [wf_iff])

/-- A canonical memory reads the unlisted value outside its space. -/
theorem read_of_size_le (h : Memory.wf u size m = true) (hi : size ≤ i) : Memory.read u m i = u :=
  read_of_not_mem fun c hc e => absurd ((wf_iff.1 h).2 c hc).1 (by omega)

theorem read_of_mem (h : m.Pairwise fun x y => x.1 < y.1) (hm : (i, v) ∈ m) :
    Memory.read u m i = v := by
  induction m with
  | nil => simp at hm
  | cons c rest ih =>
    obtain ⟨x, b⟩ := c
    obtain ⟨hx, hrest⟩ := List.pairwise_cons.1 h
    rcases List.mem_cons.1 hm with e | hm
    · obtain ⟨rfl, rfl⟩ := Prod.mk.inj e
      simp [Memory.read]
    · have : x ≠ i := (hx _ hm).ne
      simp [Memory.read, this, ih hrest hm]

/-- Two canonical memories that read the same are the same list. -/
theorem eq_of_read_eq (h : Memory.wf u size m = true) (h' : Memory.wf u size m' = true)
    (hread : ∀ i, Memory.read u m i = Memory.read u m' i) : m = m' := by
  have mem_of : ∀ {m m' : Memory}, Memory.wf u size m = true → Memory.wf u size m' = true →
      (∀ i, Memory.read u m i = Memory.read u m' i) → ∀ cell ∈ m, cell ∈ m' := by
    intro m m' h h' hr cell hc
    obtain ⟨a, b⟩ := cell
    have hab := (hr a).symm.trans (read_of_mem (wf_iff.1 h).1 hc)
    by_contra hn
    by_cases hex : ∃ c, (a, c) ∈ m'
    · obtain ⟨c, hc'⟩ := hex
      have := (read_of_mem (u := u) (wf_iff.1 h').1 hc').symm.trans hab
      exact hn (this ▸ hc')
    · have hu : Memory.read u m' a = u :=
        read_of_not_mem fun c hc e => hex ⟨c.2, by rw [← e]; exact hc⟩
      exact ((wf_iff.1 h).2 _ hc).2 (hab.symm.trans hu)
  have nodup : ∀ {m : Memory}, Memory.wf u size m = true → m.Nodup := fun h =>
    (wf_iff.1 h).1.imp fun hxy e => by rw [e] at hxy; exact lt_irrefl _ hxy
  have hperm : m.Perm m' := (List.perm_ext_iff_of_nodup (nodup h) (nodup h')).2 fun c =>
    ⟨mem_of h h' hread c, mem_of h' h (fun i => (hread i).symm) c⟩
  exact hperm.eq_of_pairwise (fun x y _ _ hxy hyx => absurd hxy (lt_asymm hyx))
    (wf_iff.1 h).1 (wf_iff.1 h').1

end Sys2Proof.Laws.Memory
end

