-- ==== Sys2Proof/Laws/State.lean ====
section
/-! SUPPORT. What each named update of the state does to each field: one lemma a field, so that no
later proof unfolds a record update. -/

namespace Sys2Proof.Laws.State

open Sys2Proof Sys2Proof.Machine

variable (s : State)

@[simp] theorem ddWrite_ddram (i : DdIndex) (v : Byte) :
    (ddWrite s i v).ddram = Memory.write Config.space s.ddram i.val v := rfl
@[simp] theorem ddWrite_cgram (i : DdIndex) (v : Byte) : (ddWrite s i v).cgram = s.cgram := rfl
@[simp] theorem ddWrite_col (i : DdIndex) (v : Byte) : (ddWrite s i v).col = s.col := rfl
@[simp] theorem ddWrite_row (i : DdIndex) (v : Byte) : (ddWrite s i v).row = s.row := rfl
@[simp] theorem ddWrite_displayOn (i : DdIndex) (v : Byte) :
    (ddWrite s i v).displayOn = s.displayOn := rfl
@[simp] theorem ddWrite_cursorOn (i : DdIndex) (v : Byte) :
    (ddWrite s i v).cursorOn = s.cursorOn := rfl
@[simp] theorem ddWrite_blinkOn (i : DdIndex) (v : Byte) :
    (ddWrite s i v).blinkOn = s.blinkOn := rfl
@[simp] theorem ddWrite_pending (i : DdIndex) (v : Byte) :
    (ddWrite s i v).pending = s.pending := rfl
@[simp] theorem ddWrite_answer (i : DdIndex) (v : Byte) : (ddWrite s i v).answer = s.answer := rfl

@[simp] theorem cgWrite_ddram (j : CgIndex) (v : Byte) : (cgWrite s j v).ddram = s.ddram := rfl
@[simp] theorem cgWrite_cgram (j : CgIndex) (v : Byte) :
    (cgWrite s j v).cgram = Memory.write Config.cgramReset s.cgram j.val v := rfl
@[simp] theorem cgWrite_col (j : CgIndex) (v : Byte) : (cgWrite s j v).col = s.col := rfl
@[simp] theorem cgWrite_row (j : CgIndex) (v : Byte) : (cgWrite s j v).row = s.row := rfl
@[simp] theorem cgWrite_displayOn (j : CgIndex) (v : Byte) :
    (cgWrite s j v).displayOn = s.displayOn := rfl
@[simp] theorem cgWrite_cursorOn (j : CgIndex) (v : Byte) :
    (cgWrite s j v).cursorOn = s.cursorOn := rfl
@[simp] theorem cgWrite_blinkOn (j : CgIndex) (v : Byte) :
    (cgWrite s j v).blinkOn = s.blinkOn := rfl
@[simp] theorem cgWrite_pending (j : CgIndex) (v : Byte) :
    (cgWrite s j v).pending = s.pending := rfl
@[simp] theorem cgWrite_answer (j : CgIndex) (v : Byte) : (cgWrite s j v).answer = s.answer := rfl

@[simp] theorem ddFill_ddram (v : Byte) :
    (ddFill s v).ddram = Memory.fill Config.space Config.ddramSize v := rfl
@[simp] theorem ddFill_cgram (v : Byte) : (ddFill s v).cgram = s.cgram := rfl
@[simp] theorem ddFill_col (v : Byte) : (ddFill s v).col = s.col := rfl
@[simp] theorem ddFill_row (v : Byte) : (ddFill s v).row = s.row := rfl
@[simp] theorem ddFill_displayOn (v : Byte) : (ddFill s v).displayOn = s.displayOn := rfl
@[simp] theorem ddFill_cursorOn (v : Byte) : (ddFill s v).cursorOn = s.cursorOn := rfl
@[simp] theorem ddFill_blinkOn (v : Byte) : (ddFill s v).blinkOn = s.blinkOn := rfl
@[simp] theorem ddFill_pending (v : Byte) : (ddFill s v).pending = s.pending := rfl
@[simp] theorem ddFill_answer (v : Byte) : (ddFill s v).answer = s.answer := rfl

@[simp] theorem cgFill_ddram (v : Byte) : (cgFill s v).ddram = s.ddram := rfl
@[simp] theorem cgFill_cgram (v : Byte) :
    (cgFill s v).cgram = Memory.fill Config.cgramReset Config.cgramSize v := rfl
@[simp] theorem cgFill_col (v : Byte) : (cgFill s v).col = s.col := rfl
@[simp] theorem cgFill_row (v : Byte) : (cgFill s v).row = s.row := rfl
@[simp] theorem cgFill_displayOn (v : Byte) : (cgFill s v).displayOn = s.displayOn := rfl
@[simp] theorem cgFill_cursorOn (v : Byte) : (cgFill s v).cursorOn = s.cursorOn := rfl
@[simp] theorem cgFill_blinkOn (v : Byte) : (cgFill s v).blinkOn = s.blinkOn := rfl
@[simp] theorem cgFill_pending (v : Byte) : (cgFill s v).pending = s.pending := rfl
@[simp] theorem cgFill_answer (v : Byte) : (cgFill s v).answer = s.answer := rfl

@[simp] theorem setCursor_ddram (p : BitVec 4 × BitVec 1) : (setCursor s p).ddram = s.ddram := rfl
@[simp] theorem setCursor_cgram (p : BitVec 4 × BitVec 1) : (setCursor s p).cgram = s.cgram := rfl
@[simp] theorem setCursor_col (p : BitVec 4 × BitVec 1) : (setCursor s p).col = p.1 := rfl
@[simp] theorem setCursor_row (p : BitVec 4 × BitVec 1) : (setCursor s p).row = p.2 := rfl
@[simp] theorem setCursor_displayOn (p : BitVec 4 × BitVec 1) :
    (setCursor s p).displayOn = s.displayOn := rfl
@[simp] theorem setCursor_cursorOn (p : BitVec 4 × BitVec 1) :
    (setCursor s p).cursorOn = s.cursorOn := rfl
@[simp] theorem setCursor_blinkOn (p : BitVec 4 × BitVec 1) :
    (setCursor s p).blinkOn = s.blinkOn := rfl
@[simp] theorem setCursor_pending (p : BitVec 4 × BitVec 1) :
    (setCursor s p).pending = s.pending := rfl
@[simp] theorem setCursor_answer (p : BitVec 4 × BitVec 1) :
    (setCursor s p).answer = s.answer := rfl

@[simp] theorem homeCursor_ddram : (homeCursor s).ddram = s.ddram := rfl
@[simp] theorem homeCursor_cgram : (homeCursor s).cgram = s.cgram := rfl
@[simp] theorem homeCursor_col : (homeCursor s).col = 0#4 := rfl
@[simp] theorem homeCursor_row : (homeCursor s).row = 0#1 := rfl
@[simp] theorem homeCursor_displayOn : (homeCursor s).displayOn = s.displayOn := rfl
@[simp] theorem homeCursor_cursorOn : (homeCursor s).cursorOn = s.cursorOn := rfl
@[simp] theorem homeCursor_blinkOn : (homeCursor s).blinkOn = s.blinkOn := rfl
@[simp] theorem homeCursor_pending : (homeCursor s).pending = s.pending := rfl
@[simp] theorem homeCursor_answer : (homeCursor s).answer = s.answer := rfl

@[simp] theorem advanceCursor_ddram : (advanceCursor s).ddram = s.ddram := rfl
@[simp] theorem advanceCursor_cgram : (advanceCursor s).cgram = s.cgram := rfl
@[simp] theorem advanceCursor_col : (advanceCursor s).col = (advance s.col s.row).1 := rfl
@[simp] theorem advanceCursor_row : (advanceCursor s).row = (advance s.col s.row).2 := rfl
@[simp] theorem advanceCursor_displayOn : (advanceCursor s).displayOn = s.displayOn := rfl
@[simp] theorem advanceCursor_cursorOn : (advanceCursor s).cursorOn = s.cursorOn := rfl
@[simp] theorem advanceCursor_blinkOn : (advanceCursor s).blinkOn = s.blinkOn := rfl
@[simp] theorem advanceCursor_pending : (advanceCursor s).pending = s.pending := rfl
@[simp] theorem advanceCursor_answer : (advanceCursor s).answer = s.answer := rfl

@[simp] theorem resetFlags_ddram : (resetFlags s).ddram = s.ddram := rfl
@[simp] theorem resetFlags_cgram : (resetFlags s).cgram = s.cgram := rfl
@[simp] theorem resetFlags_col : (resetFlags s).col = s.col := rfl
@[simp] theorem resetFlags_row : (resetFlags s).row = s.row := rfl
@[simp] theorem resetFlags_displayOn : (resetFlags s).displayOn = true := rfl
@[simp] theorem resetFlags_cursorOn : (resetFlags s).cursorOn = false := rfl
@[simp] theorem resetFlags_blinkOn : (resetFlags s).blinkOn = false := rfl
@[simp] theorem resetFlags_pending : (resetFlags s).pending = s.pending := rfl
@[simp] theorem resetFlags_answer : (resetFlags s).answer = s.answer := rfl

@[simp] theorem answerWith_ddram (a : Answer) : (answerWith s a).ddram = s.ddram := rfl
@[simp] theorem answerWith_cgram (a : Answer) : (answerWith s a).cgram = s.cgram := rfl
@[simp] theorem answerWith_col (a : Answer) : (answerWith s a).col = s.col := rfl
@[simp] theorem answerWith_row (a : Answer) : (answerWith s a).row = s.row := rfl
@[simp] theorem answerWith_displayOn (a : Answer) : (answerWith s a).displayOn = s.displayOn := rfl
@[simp] theorem answerWith_cursorOn (a : Answer) : (answerWith s a).cursorOn = s.cursorOn := rfl
@[simp] theorem answerWith_blinkOn (a : Answer) : (answerWith s a).blinkOn = s.blinkOn := rfl
@[simp] theorem answerWith_pending (a : Answer) : (answerWith s a).pending = s.pending := rfl
@[simp] theorem answerWith_answer (a : Answer) : (answerWith s a).answer = some a := rfl

@[simp] theorem withPending_ddram (rs : List Request) : (withPending s rs).ddram = s.ddram := rfl
@[simp] theorem withPending_cgram (rs : List Request) : (withPending s rs).cgram = s.cgram := rfl
@[simp] theorem withPending_col (rs : List Request) : (withPending s rs).col = s.col := rfl
@[simp] theorem withPending_row (rs : List Request) : (withPending s rs).row = s.row := rfl
@[simp] theorem withPending_displayOn (rs : List Request) :
    (withPending s rs).displayOn = s.displayOn := rfl
@[simp] theorem withPending_cursorOn (rs : List Request) :
    (withPending s rs).cursorOn = s.cursorOn := rfl
@[simp] theorem withPending_blinkOn (rs : List Request) :
    (withPending s rs).blinkOn = s.blinkOn := rfl
@[simp] theorem withPending_pending (rs : List Request) : (withPending s rs).pending = rs := rfl
@[simp] theorem withPending_answer (rs : List Request) :
    (withPending s rs).answer = s.answer := rfl

@[simp] theorem withFlags_ddram (d c b : Bool) : (withFlags s d c b).ddram = s.ddram := rfl
@[simp] theorem withFlags_cgram (d c b : Bool) : (withFlags s d c b).cgram = s.cgram := rfl
@[simp] theorem withFlags_col (d c b : Bool) : (withFlags s d c b).col = s.col := rfl
@[simp] theorem withFlags_row (d c b : Bool) : (withFlags s d c b).row = s.row := rfl
@[simp] theorem withFlags_displayOn (d c b : Bool) : (withFlags s d c b).displayOn = d := rfl
@[simp] theorem withFlags_cursorOn (d c b : Bool) : (withFlags s d c b).cursorOn = c := rfl
@[simp] theorem withFlags_blinkOn (d c b : Bool) : (withFlags s d c b).blinkOn = b := rfl
@[simp] theorem withFlags_pending (d c b : Bool) : (withFlags s d c b).pending = s.pending := rfl
@[simp] theorem withFlags_answer (d c b : Bool) : (withFlags s d c b).answer = s.answer := rfl

end Sys2Proof.Laws.State
end

