-- ==== Sys2Proof/Laws/Ops.lean ====
section
/-! SUPPORT. One lemma per shared operation that says all it can do, for proofs to cite instead of
unfolding it. -/

namespace Sys2Proof.Laws.Ops

open Sys2Proof Sys2Proof.Machine

variable (s : State)

/-! Reads of the two spaces. -/

/-- A read of display RAM depends on display RAM alone. -/
theorem ddRead_congr {s t : State} (h : s.ddram = t.ddram) (i : DdIndex) :
    ddRead s i = ddRead t i := by simp [ddRead, h]

/-- A read of CGRAM depends on CGRAM alone. -/
theorem cgRead_congr {s t : State} (h : s.cgram = t.cgram) (j : CgIndex) :
    cgRead s j = cgRead t j := by simp [cgRead, h]

@[simp] theorem ddRead_ddWrite (i k : DdIndex) (v : Byte) :
    ddRead (ddWrite s i v) k = if k = i then v else ddRead s k := by
  simp [ddRead, ddWrite, Memory.read_write, Fin.ext_iff]

@[simp] theorem cgRead_cgWrite (j k : CgIndex) (v : Byte) :
    cgRead (cgWrite s j v) k = if k = j then v else cgRead s k := by
  simp [cgRead, cgWrite, Memory.read_write, Fin.ext_iff]

@[simp] theorem ddRead_ddFill (v : Byte) (i : DdIndex) : ddRead (ddFill s v) i = v := by
  simp [ddRead, ddFill, Memory.read_fill, i.isLt]

@[simp] theorem cgRead_cgFill (v : Byte) (j : CgIndex) : cgRead (cgFill s v) j = v := by
  simp [cgRead, cgFill, Memory.read_fill, j.isLt]

@[simp] theorem ddRead_cgWrite (j : CgIndex) (v : Byte) (i : DdIndex) :
    ddRead (cgWrite s j v) i = ddRead s i := rfl

@[simp] theorem ddRead_cgFill (v : Byte) (i : DdIndex) :
    ddRead (cgFill s v) i = ddRead s i := rfl

@[simp] theorem ddRead_setCursor (p : BitVec 4 × BitVec 1) (i : DdIndex) :
    ddRead (setCursor s p) i = ddRead s i := rfl

@[simp] theorem ddRead_homeCursor (i : DdIndex) : ddRead (homeCursor s) i = ddRead s i := rfl

@[simp] theorem ddRead_advanceCursor (i : DdIndex) :
    ddRead (advanceCursor s) i = ddRead s i := rfl

@[simp] theorem ddRead_resetFlags (i : DdIndex) : ddRead (resetFlags s) i = ddRead s i := rfl

@[simp] theorem ddRead_answerWith (a : Answer) (i : DdIndex) :
    ddRead (answerWith s a) i = ddRead s i := rfl

@[simp] theorem ddRead_withPending (rs : List Request) (i : DdIndex) :
    ddRead (withPending s rs) i = ddRead s i := rfl

@[simp] theorem ddRead_withFlags (d c b : Bool) (i : DdIndex) :
    ddRead (withFlags s d c b) i = ddRead s i := rfl

@[simp] theorem cgRead_ddWrite (i : DdIndex) (v : Byte) (j : CgIndex) :
    cgRead (ddWrite s i v) j = cgRead s j := rfl

@[simp] theorem cgRead_ddFill (v : Byte) (j : CgIndex) :
    cgRead (ddFill s v) j = cgRead s j := rfl

@[simp] theorem cgRead_setCursor (p : BitVec 4 × BitVec 1) (j : CgIndex) :
    cgRead (setCursor s p) j = cgRead s j := rfl

@[simp] theorem cgRead_homeCursor (j : CgIndex) : cgRead (homeCursor s) j = cgRead s j := rfl

@[simp] theorem cgRead_advanceCursor (j : CgIndex) :
    cgRead (advanceCursor s) j = cgRead s j := rfl

@[simp] theorem cgRead_resetFlags (j : CgIndex) : cgRead (resetFlags s) j = cgRead s j := rfl

@[simp] theorem cgRead_answerWith (a : Answer) (j : CgIndex) :
    cgRead (answerWith s a) j = cgRead s j := rfl

@[simp] theorem cgRead_withPending (rs : List Request) (j : CgIndex) :
    cgRead (withPending s rs) j = cgRead s j := rfl

@[simp] theorem cgRead_withFlags (d c b : Bool) (j : CgIndex) :
    cgRead (withFlags s d c b) j = cgRead s j := rfl

/-- A fill of display RAM with the space lists nothing. -/
@[simp] theorem fill_space : Memory.fill Config.space Config.ddramSize Config.space = [] := by
  decide

/-- A fill of CGRAM with its reset value lists nothing. -/
@[simp] theorem fill_cgramReset :
    Memory.fill Config.cgramReset Config.cgramSize Config.cgramReset = [] := by decide

/-! The canonical form of the two memories. -/

/-- The canonical form depends on the memories alone. -/
theorem memoryWf_congr {s t : State} (hd : s.ddram = t.ddram) (hc : s.cgram = t.cgram) :
    memoryWf s = memoryWf t := by simp [memoryWf, hd, hc]

theorem memoryWf_ddWrite {s : State} (h : memoryWf s = true) (i : DdIndex) (v : Byte) :
    memoryWf (ddWrite s i v) = true := by
  simp only [memoryWf, Bool.and_eq_true] at h ⊢
  exact ⟨Memory.wf_write h.1 i.isLt, h.2⟩

theorem memoryWf_cgWrite {s : State} (h : memoryWf s = true) (j : CgIndex) (v : Byte) :
    memoryWf (cgWrite s j v) = true := by
  simp only [memoryWf, Bool.and_eq_true] at h ⊢
  exact ⟨h.1, Memory.wf_write h.2 j.isLt⟩

theorem memoryWf_ddFill {s : State} (h : memoryWf s = true) (v : Byte) :
    memoryWf (ddFill s v) = true := by
  simp only [memoryWf, Bool.and_eq_true] at h ⊢
  exact ⟨Memory.wf_fill, h.2⟩

theorem memoryWf_cgFill {s : State} (h : memoryWf s = true) (v : Byte) :
    memoryWf (cgFill s v) = true := by
  simp only [memoryWf, Bool.and_eq_true] at h ⊢
  exact ⟨h.1, Memory.wf_fill⟩

@[simp] theorem memoryWf_setCursor (p : BitVec 4 × BitVec 1) :
    memoryWf (setCursor s p) = memoryWf s := rfl

@[simp] theorem memoryWf_homeCursor : memoryWf (homeCursor s) = memoryWf s := rfl

@[simp] theorem memoryWf_advanceCursor : memoryWf (advanceCursor s) = memoryWf s := rfl

@[simp] theorem memoryWf_resetFlags : memoryWf (resetFlags s) = memoryWf s := rfl

@[simp] theorem memoryWf_answerWith (a : Answer) : memoryWf (answerWith s a) = memoryWf s := rfl

@[simp] theorem memoryWf_withPending (rs : List Request) :
    memoryWf (withPending s rs) = memoryWf s := rfl

/-- The memory of the state after RESET is canonical. -/
theorem memoryWf_reset : memoryWf State.reset = true := by decide

/-- Two states with canonical memories that read the same hold the same memories. -/
theorem memories_eq {s t : State} (hs : memoryWf s = true) (ht : memoryWf t = true)
    (hd : ∀ i, ddRead s i = ddRead t i) (hc : ∀ j, cgRead s j = cgRead t j) :
    s.ddram = t.ddram ∧ s.cgram = t.cgram := by
  simp only [memoryWf, Bool.and_eq_true] at hs ht
  refine ⟨Memory.eq_of_read_eq hs.1 ht.1 fun i => ?_, Memory.eq_of_read_eq hs.2 ht.2 fun j => ?_⟩
  · by_cases hi : i < Config.ddramSize
    · exact hd ⟨i, hi⟩
    · rw [Memory.read_of_size_le hs.1 (by omega), Memory.read_of_size_le ht.1 (by omega)]
  · by_cases hj : j < Config.cgramSize
    · exact hc ⟨j, hj⟩
    · rw [Memory.read_of_size_le hs.2 (by omega), Memory.read_of_size_le ht.2 (by omega)]

/-! Index formation. -/

@[simp] theorem cellIndex_val (r : BitVec 1) (c : Fin Config.rowStride) :
    (cellIndex r c).val = r.toNat * 40 + c.val := rfl

@[simp] theorem visibleIndex_val (r : BitVec 1) (c : BitVec 4) :
    (visibleIndex r c).val = r.toNat * 40 + c.toNat := rfl

@[simp] theorem slotLineIndex_val (slot : Fin Config.cgSlots) (l : Fin Config.cgLines) :
    (slotLineIndex slot l).val = slot.val * 8 + l.val := rfl

/-- A visible cell is not hidden (R25). -/
@[simp] theorem hiddenCell_visibleIndex (r : BitVec 1) (c : BitVec 4) :
    hiddenCell (visibleIndex r c) = false := by
  have hr := r.isLt
  have hc := c.isLt
  refine decide_eq_false ?_
  change ¬ 16 ≤ (r.toNat * 40 + c.toNat) % 40
  omega

/-- A cell that is not hidden is a visible cell (R25). -/
theorem exists_visibleIndex {i : DdIndex} (h : hiddenCell i = false) :
    ∃ r c, visibleIndex r c = i := by
  have hi : i.val < 80 := i.isLt
  have h : ¬ 16 ≤ i.val % 40 := of_decide_eq_false h
  refine ⟨BitVec.ofNat 1 (i.val / 40), BitVec.ofNat 4 (i.val % 40), Fin.ext ?_⟩
  rw [visibleIndex_val, BitVec.toNat_ofNat, BitVec.toNat_ofNat]
  omega

/-- Distinct cursor positions name distinct visible cells. -/
theorem visibleIndex_inj {r r' : BitVec 1} {c c' : BitVec 4} :
    visibleIndex r c = visibleIndex r' c' ↔ r = r' ∧ c = c' := by
  refine ⟨fun h => ?_, fun h => by rw [h.1, h.2]⟩
  have h := congrArg Fin.val h
  rw [visibleIndex_val, visibleIndex_val] at h
  have := c.isLt
  have := c'.isLt
  exact ⟨BitVec.eq_of_toNat_eq (by omega), BitVec.eq_of_toNat_eq (by omega)⟩

theorem windowPos_inj {r r' : BitVec 1} {c c' : BitVec 4} :
    windowPos c r = windowPos c' r' ↔ r = r' ∧ c = c' := by revert r r' c c'; decide

@[simp] theorem windowPos_toNat (c : BitVec 4) (r : BitVec 1) :
    (windowPos c r).toNat = r.toNat * 16 + c.toNat := by revert r c; decide

/-- The advance is one position forward in the ring of 32 (R51). -/
theorem windowPos_advance (c : BitVec 4) (r : BitVec 1) :
    (windowPos (advance c r).1 (advance c r).2).toNat = ((windowPos c r).toNat + 1) % 32 := by
  revert c r; decide

/-- READ_CELL's operands inside the domain. -/
theorem readCellIndex_of_lt (r : BitVec 1) {c : BitVec 6} (h : c.toNat < Config.rowStride) :
    readCellIndex r c = some (cellIndex r ⟨c.toNat, h⟩) := dif_pos h

/-- READ_CELL's operands outside the domain. -/
theorem readCellIndex_of_le (r : BitVec 1) {c : BitVec 6} (h : Config.rowStride ≤ c.toNat) :
    readCellIndex r c = none := dif_neg (by omega)

/-! The meanings, one equation each. -/

@[simp] theorem exec_writeData (b : Byte) : exec (.writeData b) s =
    .next (advanceCursor (ddWrite s (cursorIndex s) b)) := rfl

@[simp] theorem exec_clear : exec .clear s = .next (homeCursor (ddFill s Config.space)) := rfl

@[simp] theorem exec_home : exec .home s = .next (homeCursor s) := rfl

@[simp] theorem exec_reset : exec .reset s =
    .next (resetFlags (homeCursor (cgFill (ddFill s Config.space) Config.cgramReset))) := rfl

@[simp] theorem exec_readCursor : exec .readCursor s =
    .next (answerWith s (.cursor s.col s.row)) := rfl

@[simp] theorem exec_readFlags : exec .readFlags s =
    .next (answerWith s (.flags (flagBits s))) := rfl

@[simp] theorem exec_readCgram (j : BitVec 6) : exec (.readCgram j) s =
    .next (answerWith s (.cgram (cgRead s (cgPortIndex j)))) := rfl

theorem exec_readCell_of_lt (r : BitVec 1) {c : BitVec 6} (h : c.toNat < Config.rowStride) :
    exec (.readCell r c) s = .next (answerWith s (.cell (ddRead s (cellIndex r ⟨c.toNat, h⟩)))) := by
  simp [exec, execReadCell, readCellIndex_of_lt r h]

theorem exec_readCell_of_le (r : BitVec 1) {c : BitVec 6} (h : Config.rowStride ≤ c.toNat) :
    exec (.readCell r c) s = .refused .readCellOutsideDomain := by
  simp [exec, execReadCell, readCellIndex_of_le r h]

theorem exec_ignored {i : Instr} {k : Byte} (h : ignoredCode i = some k) : exec i s = .next s := by
  cases i <;> first | rfl | cases h

/-- All an operation that completes can do to the state: nothing (an ignored code), a store and an
advance, a fill, a cursor move, a reset, or an answer to the host. -/
theorem exec_next_cases {i : Instr} {s t : State} (h : exec i s = .next t) :
    (∃ k, ignoredCode i = some k ∧ t = s) ∨
    (∃ b, i = .writeData b ∧ t = advanceCursor (ddWrite s (cursorIndex s) b)) ∨
    (i = .clear ∧ t = homeCursor (ddFill s Config.space)) ∨
    (i = .home ∧ t = homeCursor s) ∨
    (i = .reset ∧
      t = resetFlags (homeCursor (cgFill (ddFill s Config.space) Config.cgramReset))) ∨
    (isRead i = true ∧ ∃ a, t = answerWith s a) := by
  have inj : ∀ {u : State}, (.next u : Host.Outcome State Fault Refusal) = .next t → t = u :=
    fun e => by cases e; rfl
  cases i with
  | writeData b => exact .inr (.inl ⟨b, rfl, inj h⟩)
  | clear => exact .inr (.inr (.inl ⟨rfl, inj h⟩))
  | home => exact .inr (.inr (.inr (.inl ⟨rfl, inj h⟩)))
  | reset => exact .inr (.inr (.inr (.inr (.inl ⟨rfl, inj h⟩))))
  | readCell r c =>
    refine .inr (.inr (.inr (.inr (.inr ⟨rfl, ?_⟩))))
    by_cases hc : c.toNat < Config.rowStride
    · rw [exec_readCell_of_lt s r hc] at h
      exact ⟨_, inj h⟩
    · rw [exec_readCell_of_le s r (by omega)] at h
      cases h
  | readCursor => exact .inr (.inr (.inr (.inr (.inr ⟨rfl, _, inj h⟩))))
  | readFlags => exact .inr (.inr (.inr (.inr (.inr ⟨rfl, _, inj h⟩))))
  | readCgram j => exact .inr (.inr (.inr (.inr (.inr ⟨rfl, _, inj h⟩))))
  | _ => exact .inl ⟨_, rfl, inj h⟩

/-- The host's line has no part in what an operation does (R6). -/
theorem exec_withPending (i : Instr) (rs : List Request) :
    exec i (withPending s rs) =
      match exec i s with
      | .next t => .next (withPending t rs)
      | .fault f => .fault f
      | .refused e => .refused e := by
  cases i with
  | readCell r c =>
    by_cases hc : c.toNat < Config.rowStride
    · rw [exec_readCell_of_lt _ r hc, exec_readCell_of_lt _ r hc]; rfl
    · rw [exec_readCell_of_le s r (by omega), exec_readCell_of_le _ r (by omega)]
  | _ => rfl

/-! The step and runs. -/

/-- A run that completes completes its first operation, and then the rest. -/
theorem runOps_cons_next {i : Instr} {ops : List Instr} {s t : State}
    (h : runOps (i :: ops) s = .next t) : ∃ u, exec i s = .next u ∧ runOps ops u = .next t := by
  simp only [runOps] at h
  split at h
  · exact ⟨_, ‹_›, h⟩
  · cases h
  · cases h

/-- A run of two sequences, the first of which completes, is the run of the second from there. -/
theorem runOps_append {a b : List Instr} {s t : State} (h : runOps a s = .next t) :
    runOps (a ++ b) s = runOps b t := by
  induction a generalizing s with
  | nil => cases h; rfl
  | cons i a ih =>
    obtain ⟨u, hu, h⟩ := runOps_cons_next h
    simp only [List.cons_append, runOps, hu]
    exact ih h

@[simp] theorem firstOps_zero (ops : Nat → Instr) : firstOps ops 0 = [] := rfl

theorem firstOps_succ (ops : Nat → Instr) (n : Nat) :
    firstOps ops (n + 1) = firstOps ops n ++ [ops n] := by
  simp [firstOps, List.range_succ]

/-- Issuing a request executes what it decodes to, on the state as it was. -/
@[simp] theorem issue_eq (r : Request) (s : State) : issue r s = exec (decode r) s := rfl

theorem step_nil {s : State} (h : s.pending = []) : step s = .next s := by
  simp [step, nextOperation, h, idle]

theorem step_cons {s : State} {r : Request} {rest : List Request} (h : s.pending = r :: rest) :
    step s = exec (decode r) (withPending s rest) := by
  simp [step, nextOperation, h]

end Sys2Proof.Laws.Ops
end

