-- ==== Sys2Proof/Laws/PerInstr.lean ====
section
/-! SUPPORT. What holds of every operation as syntax: the word that stands for it lies in its row of
spec/opcode_table.json (R44), and an operation without a row has no word (R50). -/

namespace Sys2Proof.Laws.WordInRow

/-- The word of a well-formed operation matches its table row; an operation without a word has
no row. -/
def Statement (i : Instr) : Prop :=
  i.wf = true →
    match encode i with
    | .txn t => ∃ row, i.row = some row ∧ rowMatches t row = true
    | _ => i.row = none

theorem codeRow {i : Instr} {lo hi : Nat} {k : Byte} {row : TxnWord × TxnWord}
    (henc : encode i = .txn (txnWord false k)) (hrow : i.row = some row)
    (hwf : i.wf = codeIn lo hi k)
    (h : ∀ k, codeIn lo hi k = true → rowMatches (txnWord false k) row = true) : Statement i := by
  intro hi
  rw [henc]
  exact ⟨row, hrow, h k (hwf ▸ hi)⟩

theorem writeData (b : Byte) : Statement (.writeData b) := fun _ =>
  ⟨_, rfl, by revert b; decide⟩
theorem clear : Statement .clear := fun _ => ⟨_, rfl, by decide⟩
theorem home : Statement .home := fun _ => ⟨_, rfl, by decide⟩
theorem cmdIgnored00 : Statement .cmdIgnored00 := fun _ => ⟨_, rfl, by decide⟩
theorem cmdIgnored03 : Statement .cmdIgnored03 := fun _ => ⟨_, rfl, by decide⟩
theorem cmdIgnored04To07 (k : Byte) : Statement (.cmdIgnored04To07 k) :=
  codeRow rfl rfl rfl (by decide)
theorem cmdIgnored08To0F (k : Byte) : Statement (.cmdIgnored08To0F k) :=
  codeRow rfl rfl rfl (by decide)
theorem cmdIgnored10To1F (k : Byte) : Statement (.cmdIgnored10To1F k) :=
  codeRow rfl rfl rfl (by decide)
theorem cmdIgnored20To3F (k : Byte) : Statement (.cmdIgnored20To3F k) :=
  codeRow rfl rfl rfl (by decide)
theorem cmdIgnored40To7F (k : Byte) : Statement (.cmdIgnored40To7F k) :=
  codeRow rfl rfl rfl (by decide)
theorem cmdIgnored80ToFF (k : Byte) : Statement (.cmdIgnored80ToFF k) :=
  codeRow rfl rfl rfl (by decide)
theorem reset : Statement .reset := fun _ => rfl
theorem readCell (row : BitVec 1) (col : BitVec 6) : Statement (.readCell row col) := fun _ => rfl
theorem readCursor : Statement .readCursor := fun _ => rfl
theorem readFlags : Statement .readFlags := fun _ => rfl
theorem readCgram (index : BitVec 6) : Statement (.readCgram index) := fun _ => rfl

end Sys2Proof.Laws.WordInRow
end

