-- ==== Sys2Proof/Tests/Slice0.lean ====
section
/-! SUPPORT. Small tests whose expected values come from spec/95_test_vectors.md or from the rule
named, and a witness for the hypotheses of each statement. -/

namespace Sys2Proof.Tests

open Sys2Proof Sys2Proof.Machine

/-- The next state of an outcome. -/
def nextOf : Host.Outcome State Fault Refusal → Option State
  | .next s => some s
  | .fault _ => none
  | .refused _ => none

/-- The refusal of an outcome. -/
def refusalOf : Host.Outcome State Fault Refusal → Option Refusal
  | .next _ => none
  | .fault _ => none
  | .refused r => some r

/-- The state after RESET with another cursor. -/
def cursorAt (c : BitVec 4) (r : BitVec 1) : State := { State.reset with col := c, row := r }

/-- The unreachable state of 95_test_vectors.md sections 2.4 and 2.8: flags 0b011, CGRAM[5] = 0x1F,
DDRAM[20] = 0x55, and the cursor at (15, 1). -/
def oddState : State :=
  { ddWrite (cgWrite (cursorAt 15#4 1#1) 5 0x1F#8) 20 0x55#8 with
    displayOn := false, cursorOn := true, blinkOn := true }

/-! Well-formedness: each check refuses an ill-formed term and admits the ends of its range (R44). -/

theorem test_wf_refuses_codes_outside_their_row :
    (Instr.cmdIgnored04To07 0x03#8).wf = false ∧ (Instr.cmdIgnored04To07 0x08#8).wf = false ∧
    (Instr.cmdIgnored08To0F 0x07#8).wf = false ∧ (Instr.cmdIgnored08To0F 0x10#8).wf = false ∧
    (Instr.cmdIgnored10To1F 0x0F#8).wf = false ∧ (Instr.cmdIgnored10To1F 0x20#8).wf = false ∧
    (Instr.cmdIgnored20To3F 0x1F#8).wf = false ∧ (Instr.cmdIgnored20To3F 0x40#8).wf = false ∧
    (Instr.cmdIgnored40To7F 0x3F#8).wf = false ∧ (Instr.cmdIgnored40To7F 0x80#8).wf = false ∧
    (Instr.cmdIgnored80ToFF 0x7F#8).wf = false := by decide

theorem test_wf_admits_the_ends_of_each_row :
    (Instr.cmdIgnored04To07 0x04#8).wf = true ∧ (Instr.cmdIgnored04To07 0x07#8).wf = true ∧
    (Instr.cmdIgnored08To0F 0x08#8).wf = true ∧ (Instr.cmdIgnored08To0F 0x0F#8).wf = true ∧
    (Instr.cmdIgnored10To1F 0x10#8).wf = true ∧ (Instr.cmdIgnored10To1F 0x1F#8).wf = true ∧
    (Instr.cmdIgnored20To3F 0x20#8).wf = true ∧ (Instr.cmdIgnored20To3F 0x3F#8).wf = true ∧
    (Instr.cmdIgnored40To7F 0x40#8).wf = true ∧ (Instr.cmdIgnored40To7F 0x7F#8).wf = true ∧
    (Instr.cmdIgnored80ToFF 0x80#8).wf = true ∧ (Instr.cmdIgnored80ToFF 0xFF#8).wf = true := by
  decide

/-! Decode: a word of each TXN9 row, written out bit by bit, RS first (R41, R44), and a request of
each operation that has no word (R50). -/

theorem test_decode_write_data : decodeTableWord 16 0b1_01000001 = some (.writeData 0x41#8) := by
  decide
theorem test_decode_write_data_is_not_clear :
    decodeTableWord 16 0b1_00000001 = some (.writeData 0x01#8) := by decide
theorem test_decode_clear : decodeTableWord 16 0b0_00000001 = some .clear := by decide
theorem test_decode_home : decodeTableWord 16 0b0_00000010 = some .home := by decide
theorem test_decode_00 : decodeTableWord 16 0b0_00000000 = some .cmdIgnored00 := by decide
theorem test_decode_03 : decodeTableWord 16 0b0_00000011 = some .cmdIgnored03 := by decide
theorem test_decode_06 :
    decodeTableWord 16 0b0_00000110 = some (.cmdIgnored04To07 0x06#8) := by decide
theorem test_decode_0F :
    decodeTableWord 16 0b0_00001111 = some (.cmdIgnored08To0F 0x0F#8) := by decide
theorem test_decode_18 :
    decodeTableWord 16 0b0_00011000 = some (.cmdIgnored10To1F 0x18#8) := by decide
theorem test_decode_20_is_no_space :
    decodeTableWord 16 0b0_00100000 = some (.cmdIgnored20To3F 0x20#8) := by decide
theorem test_decode_40 :
    decodeTableWord 16 0b0_01000000 = some (.cmdIgnored40To7F 0x40#8) := by decide
theorem test_decode_81_is_not_clear :
    decodeTableWord 16 0b0_10000001 = some (.cmdIgnored80ToFF 0x81#8) := by decide
theorem test_decode_refuses_a_tenth_bit : decodeTableWord 16 0b10_00000001 = none := by decide
theorem test_decode_has_no_word_for_ports :
    decodeTableWord 8 0 = none ∧ decodeTableWord 0 0 = none := by decide
theorem test_decode_ports :
    decode .reset = .reset ∧ decode (.readCell 1#1 39#6) = .readCell 1#1 39#6 ∧
    decode .readCursor = .readCursor ∧ decode .readFlags = .readFlags ∧
    decode (.readCgram 63#6) = .readCgram 63#6 := by decide

/-! The cursor and the indexes at the ends of their ranges (R25, section 2.2). -/

theorem test_advance_at_the_ends_of_both_rows :
    advance 14#4 0#1 = (15#4, 0#1) ∧ advance 15#4 0#1 = (0#4, 1#1) ∧
    advance 14#4 1#1 = (15#4, 1#1) ∧ advance 15#4 1#1 = (0#4, 0#1) := by decide
theorem test_hidden_cells_at_the_ends_of_the_window :
    hiddenCell 15 = false ∧ hiddenCell 16 = true ∧ hiddenCell 39 = true ∧
    hiddenCell 40 = false ∧ hiddenCell 55 = false ∧ hiddenCell 56 = true ∧
    hiddenCell 79 = true := by decide
theorem test_writes_at_the_last_index_of_each_space :
    ddRead (ddWrite State.reset 79 0x41#8) 79 = 0x41#8 ∧
    ddRead (ddWrite State.reset 79 0x41#8) 78 = 0x20#8 ∧
    cgRead (cgWrite State.reset 63 0x1F#8) 63 = 0x1F#8 ∧
    cgRead (cgWrite State.reset 63 0x1F#8) 62 = 0x00#8 := by decide
theorem test_writing_the_unlisted_value_lists_nothing :
    (ddWrite (ddWrite State.reset 5 0x41#8) 5 0x20#8).ddram = [] := by decide

/-! WRITE_DATA (95_test_vectors.md section 2.3). -/

theorem test_write_data_at_end_of_row_0 :
    (nextOf (exec (.writeData 0x43#8) (cursorAt 15#4 0#1))).map
      (fun t => (ddRead t 15, ddRead t 40, t.col, t.row)) =
      some (0x43#8, 0x20#8, 0#4, 1#1) := by decide
theorem test_write_data_at_end_of_row_1 :
    (nextOf (exec (.writeData 0x46#8) (cursorAt 15#4 1#1))).map
      (fun t => (ddRead t 55, t.col, t.row)) = some (0x46#8, 0#4, 0#1) := by decide

/-! CLEAR and HOME (sections 2.4, 2.5). -/

theorem test_clear_fills_hidden_cells :
    (nextOf (exec .clear oddState)).map (fun t => (ddRead t 20, t.col, t.row)) =
      some (0x20#8, 0#4, 0#1) := by decide
theorem test_clear_keeps_flags_and_cgram :
    (nextOf (exec .clear oddState)).map (fun t => (cgRead t 5, flagBits t)) =
      some (0x1F#8, 0b011#3) := by decide
theorem test_home_keeps_display_ram :
    (nextOf (exec .home oddState)).map (fun t => (ddRead t 20, t.col, t.row)) =
      some (0x55#8, 0#4, 0#1) := by decide

/-! Ignored commands (section 2.6): the state as it was. -/

theorem test_ignored_00 : nextOf (exec .cmdIgnored00 oddState) = some oddState := by decide
theorem test_ignored_03 : nextOf (exec .cmdIgnored03 oddState) = some oddState := by decide
theorem test_ignored_06 :
    nextOf (exec (.cmdIgnored04To07 0x06#8) oddState) = some oddState := by decide
theorem test_ignored_0C :
    nextOf (exec (.cmdIgnored08To0F 0x0C#8) oddState) = some oddState := by decide
theorem test_ignored_14 :
    nextOf (exec (.cmdIgnored10To1F 0x14#8) oddState) = some oddState := by decide
theorem test_ignored_38 :
    nextOf (exec (.cmdIgnored20To3F 0x38#8) oddState) = some oddState := by decide
theorem test_ignored_40 :
    nextOf (exec (.cmdIgnored40To7F 0x40#8) oddState) = some oddState := by decide
theorem test_ignored_C0 :
    nextOf (exec (.cmdIgnored80ToFF 0xC0#8) oddState) = some oddState := by decide

/-! Reads (section 2.7). -/

theorem test_read_cell_of_row_1 :
    (nextOf (exec (.readCell 1#1 0#6) (ddWrite State.reset 40 0x31#8))).map (·.answer) =
      some (some (.cell 0x31#8)) := by decide
theorem test_read_cell_0_40_is_no_alias :
    refusalOf (exec (.readCell 0#1 40#6) (ddWrite State.reset 40 0x31#8)) =
      some .readCellOutsideDomain := by decide
theorem test_read_cursor :
    (nextOf (exec .readCursor (cursorAt 4#4 1#1))).map (·.answer) =
      some (some (.cursor 4#4 1#1)) := by decide
theorem test_read_flags :
    (nextOf (exec .readFlags State.reset)).map (·.answer) = some (some (.flags 0b100#3)) := by
  decide
theorem test_read_flags_bit_order :
    (nextOf (exec .readFlags { State.reset with displayOn := false, cursorOn := true })).map
      (·.answer) = some (some (.flags 0b010#3)) := by decide
theorem test_read_cgram :
    (nextOf (exec (.readCgram 5#6) oddState)).map (·.answer) = some (some (.cgram 0x1F#8)) := by
  decide

/-! RESET (section 2.8). -/

theorem test_reset_of_an_odd_state : nextOf (exec .reset oddState) = some State.reset := by decide

/-! The step: the placed word runs as the first operation after RESET; with nothing placed nothing
changes. -/

theorem test_first_step_runs_the_placed_word :
    (nextOf (step (State.reset.withFetchWord 16 0x148))).map
      (fun t => (ddRead t 0, t.col, t.row, t.pending)) = some (0x48#8, 1#4, 0#1, []) := by decide
theorem test_step_idles : nextOf (step State.reset) = some State.reset := by decide

/-! The picture (section 2.9). -/

theorem test_picture_indicator :
    (picture { cursorAt 4#4 1#1 with cursorOn := true }).indicator = some (4#4, 1#1) := by decide
theorem test_picture_code_3_shows_eight_zero_lines :
    (glyph State.reset 0x03#8).toList = List.replicate 8 0x00#8 := by decide
theorem test_picture_code_at_row_1 :
    visibleCode (ddWrite State.reset 40 0x31#8) 1 0 = 0x31#8 := by decide

/-! Signals (60_exceptions.md R72): reset beats a transaction, and the outputs show the state
before. -/

theorem test_signal_reset_wins :
    (fun o => (o.1.curCol, nextOf o.2)) (signalStep
      { reset := true, wrValid := true, wrRs := true, wrDb := 0x41#8, rdRow := 0#1, rdCol := 0#6,
        cgAddr := 0#6 } (cursorAt 4#4 1#1)) = (4#4, some State.reset) := by decide

/-! Witnesses: for each statement with hypotheses, a state and operands that meet them together. -/

/-- Every state is reached by the empty run from itself; here the state after RESET. -/
theorem reachable_reset : Reachable State.reset := ⟨[], rfl⟩

/-- A reached state other than the one after RESET. -/
theorem reachable_after_a_write : Reachable
    { State.reset with ddram := [(0, 0x48#8)], col := 1#4 } :=
  ⟨[.writeData 0x48#8], rfl⟩

theorem witness_DecodeOfEncodeIsTheOperation :
    (Instr.writeData 0xFF#8).wf = true ∧ (Instr.cmdIgnored80ToFF 0xFF#8).wf = true ∧
    (Instr.readCell 1#1 63#6).wf = true := by decide

theorem witness_TransactionDecodeTestsRSFirst :
    (0x101#9 : TxnWord).getLsbD 8 = true ∧
    ((0x001#9 : TxnWord).getLsbD 8 = false ∧ (0x001#9 : TxnWord).extractLsb' 0 8 = 0x01#8) ∧
    ((0x002#9 : TxnWord).getLsbD 8 = false ∧ (0x002#9 : TxnWord).extractLsb' 0 8 = 0x02#8) ∧
    ((0x003#9 : TxnWord).getLsbD 8 = false ∧ (0x003#9 : TxnWord).extractLsb' 0 8 ≠ 0x01#8 ∧
      (0x003#9 : TxnWord).extractLsb' 0 8 ≠ 0x02#8) := by decide

theorem witness_CellIndexIsABijection : cellIndex 1#1 39 = cellIndex 1#1 39 := rfl

theorem witness_GlyphLineIndexIsABijection : slotLineIndex 7 7 = slotLineIndex 7 7 := rfl

/-- One byte written at (15, 0): its position is 15, position 16 is not reached, cell 16 is hidden. -/
theorem witness_ConsecutiveWritesFillTheRing :
    (0 < [0x41#8].length ∧ [0x41#8].length ≤ 0 + 32 ∧
      (windowPos 15#4 0#1).toNat = ((windowPos 15#4 0#1).toNat + 0) % 32) ∧
    (∀ k < [0x41#8].length,
      (windowPos 0#4 1#1).toNat ≠ ((windowPos 15#4 0#1).toNat + k) % 32) ∧
    hiddenCell 16 = true := by decide

/-- The first byte that survives of 33 written from (15, 0) is that of k = 1, where the length is
exactly k + 32, at position 16; of 32 written it is that of k = 0. -/
theorem witness_ConsecutiveWritesFillTheRing_at_the_boundary :
    (1 < (List.replicate 33 0x41#8).length ∧ (List.replicate 33 0x41#8).length = 1 + 32 ∧
      (windowPos 0#4 1#1).toNat = ((windowPos 15#4 0#1).toNat + 1) % 32) ∧
    (0 < (List.replicate 32 0x41#8).length ∧ (List.replicate 32 0x41#8).length = 0 + 32 ∧
      (windowPos 15#4 0#1).toNat = ((windowPos 15#4 0#1).toNat + 0) % 32) := by decide

theorem witness_IgnoredCommandsChangeNothing :
    (0x00#8 ≠ 0x01#8 ∧ 0x00#8 ≠ 0x02#8) ∧ (0x03#8 ≠ 0x01#8 ∧ 0x03#8 ≠ 0x02#8) ∧
    (0xFF#8 ≠ 0x01#8 ∧ 0xFF#8 ≠ 0x02#8) := by decide

theorem witness_ReadCellAnswersOrRefuses :
    (39#6).toNat ≤ 39 ∧ 40 ≤ (40#6).toNat ∧ 40 ≤ (63#6).toNat := by decide

theorem witness_ClearHomeResetAreIdempotent :
    (∃ t, exec .clear oddState = .next t) ∧ (∃ t, exec .home oddState = .next t) ∧
    (∃ t, exec .reset oddState = .next t) := ⟨⟨_, rfl⟩, ⟨_, rfl⟩, ⟨_, rfl⟩⟩

theorem witness_ClearEqualsResetOnlyInsideTheInvariant : RunInv State.reset := by decide

theorem witness_WrittenByteIsReadBack :
    (∃ t, exec (.writeData 0xFF#8) (cursorAt 15#4 1#1) = .next t) ∧
    (39#6).toNat ≤ 39 ∧ (15#6).toNat ≤ 39 ∧
    (1#1 = (cursorAt 15#4 1#1).row ∧ (15#6).toNat = (cursorAt 15#4 1#1).col.toNat) :=
  ⟨⟨_, rfl⟩, by decide⟩

theorem witness_ReadsChangeNothingAndRepeat :
    (isRead (.readCell 1#1 39#6) = true ∧ ∃ t, exec (.readCell 1#1 39#6) oddState = .next t) ∧
    (isRead .readCursor = true ∧ ∃ t, exec .readCursor oddState = .next t) ∧
    (isRead .readFlags = true ∧ ∃ t, exec .readFlags oddState = .next t) ∧
    (isRead (.readCgram 63#6) = true ∧ ∃ t, exec (.readCgram 63#6) oddState = .next t) :=
  ⟨⟨rfl, _, rfl⟩, ⟨rfl, _, rfl⟩, ⟨rfl, _, rfl⟩, ⟨rfl, _, rfl⟩⟩

theorem witness_OnlyListedOperationsWrite :
    (∃ t, exec .home oddState = .next t) ∧
    (Instr.home ≠ .reset ∧ Instr.home ≠ .clear ∧ isWriteData .home = false) ∧
    (∃ t, exec .readCursor oddState = .next t) ∧
    (Instr.readCursor ≠ .reset ∧ Instr.readCursor ≠ .clear ∧ Instr.readCursor ≠ .home ∧
      isWriteData .readCursor = false) ∧
    (∃ t, exec .clear oddState = .next t) ∧ isRead .clear = false :=
  ⟨⟨_, rfl⟩, by decide, ⟨_, rfl⟩, by decide, ⟨_, rfl⟩, rfl⟩

theorem witness_CursorMovesOnlyAsListed :
    (∃ t, exec (.writeData 0x41#8) oddState = .next t) ∧ (∃ t, exec .home oddState = .next t) ∧
    (∃ t, exec .cmdIgnored03 oddState = .next t) := ⟨⟨_, rfl⟩, ⟨_, rfl⟩, ⟨_, rfl⟩⟩

theorem witness_FlagsGateNothing :
    (Instr.writeData 0x41#8 ≠ .reset ∧ Instr.writeData 0x41#8 ≠ .readFlags ∧
      ∃ t, exec (.writeData 0x41#8) oddState = .next t) ∧
    (Instr.readCell 0#1 40#6 ≠ .reset ∧ Instr.readCell 0#1 40#6 ≠ .readFlags ∧
      ∃ e, exec (.readCell 0#1 40#6) oddState = .refused e) :=
  ⟨⟨by decide, by decide, _, rfl⟩, by decide, by decide, _, rfl⟩

theorem witness_EveryOperationInItsDomainCompletes :
    inDomain (.readCell 0#1 39#6) = true ∧ inDomain (.readCell 0#1 40#6) = false := by decide

theorem witness_CursorCountsTheDataWrites :
    (∀ i ∈ [Instr.writeData 0x41#8, .readCursor, .cmdIgnored00],
      isWriteData i = true ∨ isRead i = true ∨ (ignoredCode i).isSome = true) ∧
    ∃ t, runOps [.writeData 0x41#8, .readCursor, .cmdIgnored00] State.reset = .next t :=
  ⟨by decide, _, rfl⟩

theorem witness_InstancesShareNothing :
    (∃ bank', operateOn [State.reset, oddState] (1 : Fin 2) (.writeData 0x41#8) = .next bank') ∧
    (0 : Nat) ≠ 1 := ⟨⟨_, rfl⟩, by decide⟩

theorem witness_StepRunsTheDecodedOperation :
    (Instr.writeData 0x41#8).wf = true ∧
    (State.reset.withFetchWord 16 0x141).pending = encode (.writeData 0x41#8) :: [] ∧
    State.reset.pending = [] := by decide

theorem witness_StepsTakeOperationsInOrder :
    (∀ i ∈ [Instr.clear, .readCursor], i.wf = true) ∧
    (withPending State.reset [.txn 0x001#9, .readCursor, .reset]).pending =
      [Instr.clear, .readCursor].map encode ++ [.reset] := by decide

/-- The states of the run that writes the same byte for ever. -/
def endlessWrites : Nat → State
  | 0 => State.reset
  | n + 1 => advanceCursor (ddWrite (endlessWrites n) (cursorIndex (endlessWrites n)) 0x41#8)

theorem witness_InfiniteSequencesHaveOneInfiniteRun :
    (∀ n : Nat, inDomain ((fun _ => Instr.writeData 0x41#8 : Nat → Instr) n) = true) ∧
    InfiniteRun (fun _ => .writeData 0x41#8) endlessWrites :=
  ⟨fun _ => rfl, rfl, fun _ => rfl⟩

theorem witness_StepFollowsAnInfiniteRun :
    InfiniteRun (fun _ => .writeData 0x41#8) endlessWrites ∧
    (∀ n : Nat, ((fun _ => Instr.writeData 0x41#8 : Nat → Instr) n).wf = true) :=
  ⟨⟨rfl, fun _ => rfl⟩, fun _ => rfl⟩

theorem witness_StepKeepsMemoryCanonical :
    memoryWf oddState = true ∧ ∃ t, step (presentNext oddState (.txn 0x141#9)) = .next t :=
  ⟨by decide, _, rfl⟩

/-- One step of a write at the last visible cell, from a state that meets all three invariants. -/
theorem witness_StepKeepsRunInvariants :
    (∃ t, step (presentNext (cursorAt 15#4 1#1) (.txn 0x141#9)) = .next t) ∧
    HiddenSpaces (presentNext (cursorAt 15#4 1#1) (.txn 0x141#9)) ∧
    CgramZero (presentNext (cursorAt 15#4 1#1) (.txn 0x141#9)) ∧
    FlagsAtReset (presentNext (cursorAt 15#4 1#1) (.txn 0x141#9)) :=
  ⟨⟨_, rfl⟩, by decide, by decide, by decide⟩

theorem witness_ReachedStatesKeepHiddenCellsCgramAndFlags :
    Reachable State.reset ∧
    (∀ i : DdIndex, i = 16 ∨ i = 39 ∨ i = 56 ∨ i = 79 →
      (16 ≤ i.val ∧ i.val ≤ 39) ∨ (56 ≤ i.val ∧ i.val ≤ 79)) := ⟨reachable_reset, by decide⟩

theorem witness_ReachedStatesAreExactlyTheInvariantOnes :
    (∃ s', Reachable s' ∧ SameBlock s' State.reset) ∧ RunInv State.reset :=
  ⟨⟨_, reachable_reset, rfl, rfl, rfl, rfl, rfl, rfl, rfl⟩, by decide⟩

theorem witness_ReachedStatesAnswerTheDerivedValues :
    Reachable State.reset ∧ (16 ≤ (16#6).toNat ∧ (16#6).toNat ≤ 39) ∧
    (16 ≤ (39#6).toNat ∧ (39#6).toNat ≤ 39) := ⟨reachable_reset, by decide, by decide⟩

/-- An input sample with these two strobes. -/
def sample (rst wr : Bool) : InPorts :=
  { reset := rst, wrValid := wr, wrRs := true, wrDb := 0x41#8, rdRow := 1#1, rdCol := 39#6,
    cgAddr := 63#6 }

theorem witness_SignalStepLetsResetWin :
    (sample true true).reset = true ∧
    ((sample false true).reset = false ∧ (sample false true).wrValid = true) ∧
    ((sample false false).reset = false ∧ (sample false false).wrValid = false) := by decide

theorem witness_PortsShowWhatReadsAnswer :
    (sample false false).rdCol.toNat ≤ 39 ∧
    ¬ ({ sample false false with rdCol := 40#6 } : InPorts).rdCol.toNat ≤ 39 := by decide

theorem witness_PictureShowsGlyphsUnlessDisplayIsOff :
    State.reset.displayOn = true ∧ oddState.displayOn = false := by decide

theorem witness_CursorIndicatorNeedsBothFlags :
    ({ cursorAt 4#4 1#1 with cursorOn := true } : State).cursorOn = true ∧
    ({ cursorAt 4#4 1#1 with cursorOn := true } : State).displayOn = true ∧
    Reachable State.reset := ⟨rfl, rfl, reachable_reset⟩

theorem witness_BlinkHasNoEffect :
    Instr.writeData 0x41#8 ≠ .reset ∧ Instr.writeData 0x41#8 ≠ .readFlags ∧
    ∃ t, exec (.writeData 0x41#8) oddState = .next t := ⟨by decide, by decide, _, rfl⟩

theorem witness_GlyphComesFromCgramBelowEight :
    (7#8 : Byte).toNat < 8 ∧ 8 ≤ (8#8 : Byte).toNat ∧ Reachable State.reset :=
  ⟨by decide, by decide, reachable_reset⟩

theorem witness_GlyphPixelsAreTheLowFiveBits :
    ∀ (y : Fin 8) (n : Nat), n < 5 →
      ((Vector.ofFn fun _ => 0x1F#8 : Vector Byte 8).get y).getLsbD n =
        ((Vector.ofFn fun _ => 0xFF#8 : Vector Byte 8).get y).getLsbD n := by decide

/-- Two states that differ in a hidden cell, in B and in the host's side meet the hypotheses. -/
theorem witness_PictureDependsOnlyOnWhatReadsAnswer :
    (∀ (r : BitVec 1) (c : BitVec 4), ddRead State.reset (visibleIndex r c) =
      ddRead { ddWrite State.reset 16 0x55#8 with blinkOn := true } (visibleIndex r c)) ∧
    (∀ j : CgIndex, cgRead State.reset j =
      cgRead { ddWrite State.reset 16 0x55#8 with blinkOn := true } j) := by decide

end Sys2Proof.Tests
end

section
/-! SUPPORT. What the host presents for a well-formed operation decodes to that operation (R41, R43,
R47, R50): the fields of an encoded word, then the code map of R44 one range at a time. -/

namespace Sys2Proof.Proofs.Decode

open Sys2Proof

@[simp] theorem txnRs_txnWord (rs : Bool) (db : Byte) : txnRs (txnWord rs db) = rs :=
  BitVec.getLsbD_append.trans (by simp)

@[simp] theorem txnDb_txnWord (rs : Bool) (db : Byte) : txnDb (txnWord rs db) = db :=
  BitVec.extractLsb'_append_eq_right

/-- With RS = 1 the byte is data, whatever it is (R43). -/
@[simp] theorem decode_txnWord_true (b : Byte) :
    decode (.txn (txnWord true b)) = .writeData b := by
  simp [decode, decodeTxn]

/-- With RS = 0 the byte is a command code (R43). -/
@[simp] theorem decode_txnWord_false (k : Byte) :
    decode (.txn (txnWord false k)) = decodeCommand k := by
  simp [decode, decodeTxn]

theorem codeIn_iff {lo hi : Nat} {k : Byte} :
    codeIn lo hi k = true ↔ lo ≤ k.toNat ∧ k.toNat ≤ hi := by
  simp [codeIn]

section Ranges

variable {k : Byte}

/-- A code from 4 on is none of the four that R44 lists singly, so its range alone decides. -/
theorem decodeCommand_of_four_le (h : 4 ≤ k.toNat) : decodeCommand k =
    if k.toNat < 0x08 then .cmdIgnored04To07 k
    else if k.toNat < 0x10 then .cmdIgnored08To0F k
    else if k.toNat < 0x20 then .cmdIgnored10To1F k
    else if k.toNat < 0x40 then .cmdIgnored20To3F k
    else if k.toNat < 0x80 then .cmdIgnored40To7F k
    else .cmdIgnored80ToFF k := by
  have hne : ∀ c : Byte, c.toNat < 4 → k ≠ c := by rintro c hc rfl; omega
  simp [decodeCommand, hne]

theorem decodeCommand_04To07 (h : codeIn 0x04 0x07 k = true) :
    decodeCommand k = .cmdIgnored04To07 k := by
  obtain ⟨hlo, hhi⟩ := codeIn_iff.mp h
  simp (disch := omega) only [decodeCommand_of_four_le, if_pos]

theorem decodeCommand_08To0F (h : codeIn 0x08 0x0F k = true) :
    decodeCommand k = .cmdIgnored08To0F k := by
  obtain ⟨hlo, hhi⟩ := codeIn_iff.mp h
  simp (disch := omega) only [decodeCommand_of_four_le, if_pos, if_neg]

theorem decodeCommand_10To1F (h : codeIn 0x10 0x1F k = true) :
    decodeCommand k = .cmdIgnored10To1F k := by
  obtain ⟨hlo, hhi⟩ := codeIn_iff.mp h
  simp (disch := omega) only [decodeCommand_of_four_le, if_pos, if_neg]

theorem decodeCommand_20To3F (h : codeIn 0x20 0x3F k = true) :
    decodeCommand k = .cmdIgnored20To3F k := by
  obtain ⟨hlo, hhi⟩ := codeIn_iff.mp h
  simp (disch := omega) only [decodeCommand_of_four_le, if_pos, if_neg]

theorem decodeCommand_40To7F (h : codeIn 0x40 0x7F k = true) :
    decodeCommand k = .cmdIgnored40To7F k := by
  obtain ⟨hlo, hhi⟩ := codeIn_iff.mp h
  simp (disch := omega) only [decodeCommand_of_four_le, if_pos, if_neg]

theorem decodeCommand_80ToFF (h : codeIn 0x80 0xFF k = true) :
    decodeCommand k = .cmdIgnored80ToFF k := by
  obtain ⟨hlo, -⟩ := codeIn_iff.mp h
  simp (disch := omega) only [decodeCommand_of_four_le, if_neg]

end Ranges

/-- The request of a well-formed operation decodes to it; an operation with ports of its own is its
own request (R50). -/
theorem decode_encode {i : Instr} (h : i.wf = true) : decode (encode i) = i := by
  cases i with
  | writeData b => exact decode_txnWord_true b
  | clear => exact decode_txnWord_false _
  | home => exact decode_txnWord_false _
  | cmdIgnored00 => exact decode_txnWord_false _
  | cmdIgnored03 => exact decode_txnWord_false _
  | cmdIgnored04To07 k => exact (decode_txnWord_false k).trans (decodeCommand_04To07 h)
  | cmdIgnored08To0F k => exact (decode_txnWord_false k).trans (decodeCommand_08To0F h)
  | cmdIgnored10To1F k => exact (decode_txnWord_false k).trans (decodeCommand_10To1F h)
  | cmdIgnored20To3F k => exact (decode_txnWord_false k).trans (decodeCommand_20To3F h)
  | cmdIgnored40To7F k => exact (decode_txnWord_false k).trans (decodeCommand_40To7F h)
  | cmdIgnored80ToFF k => exact (decode_txnWord_false k).trans (decodeCommand_80ToFF h)
  | reset => rfl
  | readCell row col => rfl
  | readCursor => rfl
  | readFlags => rfl
  | readCgram index => rfl

end Sys2Proof.Proofs.Decode
end

section
/-! PROOF. The step takes the head of the host's line (R5, R6, R34). -/

namespace Sys2Proof.Proofs.Step

open Sys2Proof Sys2Proof.Machine

/-- With a well-formed operation's request next in line, the step is that operation on the state with
the rest of the line. -/
theorem step_encode_cons {i : Instr} {s : State} {rest : List Request} (hwf : i.wf = true)
    (h : s.pending = encode i :: rest) : step s = exec i (withPending s rest) := by
  rw [Laws.Ops.step_cons h, Decode.decode_encode hwf]

/-- Settles O34: the head of the line is executed, decoding undoes the encoding of a well-formed
operation, and an empty line leaves the state as it is. -/
theorem stepRunsTheDecodedOperation : Obligations.StepRunsTheDecodedOperation :=
  ⟨fun _ _ _ hwf h => step_encode_cons hwf h,
   fun _ _ _ h => Laws.Ops.step_cons h,
   fun _ h => Laws.Ops.step_nil h⟩

end Sys2Proof.Proofs.Step
end

section
/-! PROOF. What one operation leaves alone: the empty cells of the writer table (R15), the cursor
(R9, R57), the flags (R10), and the other entries of a bank (R22, R79). -/

namespace Sys2Proof.Proofs.Frame

open Sys2Proof Sys2Proof.Machine

variable {i : Instr} {s t : State}

theorem exists_of_isWriteData (h : isWriteData i = true) : ∃ b, i = .writeData b := by
  cases i with
  | writeData b => exact ⟨b, rfl⟩
  | _ => cases h

/-- Settles O28: in each case of what an operation can do, the elements it does not write are those
of the state before. -/
theorem onlyListedOperationsWrite : Obligations.OnlyListedOperationsWrite := by
  intro i s t h
  obtain ⟨k, -, rfl⟩ | ⟨b, rfl, rfl⟩ | ⟨rfl, rfl⟩ | ⟨rfl, rfl⟩ | ⟨rfl, rfl⟩ | ⟨hread, a, rfl⟩ :=
    Laws.Ops.exec_next_cases h
  · simp
  · simp [isWriteData]
  · simp
  · simp
  · simp
  · simp [hread]

/-- Settles O29: WRITE_DATA advances, the three homing operations put the cursor at the origin, and
the writer table leaves it alone for the rest. -/
theorem cursorMovesOnlyAsListed : Obligations.CursorMovesOnlyAsListed := by
  intro i s t h
  split_ifs with hwrite hhome
  · obtain ⟨b, rfl⟩ := exists_of_isWriteData hwrite
    cases h
    rfl
  · obtain rfl | rfl | rfl := hhome <;> cases h <;> exact ⟨rfl, rfl⟩
  · simp only [not_or] at hhome
    obtain ⟨hclear, hhome, hreset⟩ := hhome
    obtain ⟨-, -, hcursor, -⟩ := onlyListedOperationsWrite i s t h
    exact hcursor hreset hclear hhome (by simpa using hwrite)

/-- Every completing operation but RESET and READ_FLAGS does the same under other flags. -/
theorem exec_withFlags_next (hreset : i ≠ .reset) (hflags : i ≠ .readFlags) (d c b : Bool)
    (h : exec i s = .next t) : exec i (withFlags s d c b) = .next (withFlags t d c b) := by
  cases i with
  | reset => exact absurd rfl hreset
  | readFlags => exact absurd rfl hflags
  | readCell row col =>
    by_cases hcol : col.toNat < Config.rowStride
    · rw [Laws.Ops.exec_readCell_of_lt s row hcol] at h
      rw [Laws.Ops.exec_readCell_of_lt _ row hcol]
      cases h
      rfl
    · rw [Laws.Ops.exec_readCell_of_le s row (by omega)] at h
      cases h
  | _ => cases h; rfl

/-- What is refused is a READ_CELL outside the domain of R58. -/
theorem exec_refused_cases {e : Refusal} (h : exec i s = .refused e) :
    ∃ row col, i = .readCell row col ∧ Config.rowStride ≤ col.toNat ∧
      e = .readCellOutsideDomain := by
  cases i with
  | readCell row col =>
    by_cases hcol : col.toNat < Config.rowStride
    · rw [Laws.Ops.exec_readCell_of_lt s row hcol] at h
      cases h
    · have hcol : Config.rowStride ≤ col.toNat := by omega
      rw [Laws.Ops.exec_readCell_of_le s row hcol] at h
      cases h
      exact ⟨row, col, rfl, hcol, rfl⟩
  | _ => cases h

/-- Settles O30: a completing operation carries other flags along, and the one refusal depends on
the operands alone. -/
theorem flagsGateNothing : Obligations.FlagsGateNothing := by
  refine fun i s d c b hreset hflags =>
    ⟨fun t h => exec_withFlags_next hreset hflags d c b h, fun e h => ?_⟩
  obtain ⟨row, col, rfl, hcol, rfl⟩ := exec_refused_cases h
  exact Laws.Ops.exec_readCell_of_le _ row hcol

/-- Settles O8: the widths of COL and ROW bound the cursor, and so the index of its cell. -/
theorem cursorIsInBoundsAndVisible : Obligations.CursorIsInBoundsAndVisible := by
  intro s
  have hcol : s.col.toNat < 16 := s.col.isLt
  have hrow : s.row.toNat < 2 := s.row.isLt
  have hindex : (cursorIndex s).val = s.row.toNat * 40 + s.col.toNat := rfl
  exact ⟨hcol, hrow, hindex, by omega⟩

/-- An operation on one entry of a bank that completes puts back what it leaves of that entry. -/
theorem operateOn_next {bank bank' : List State} {n : Fin bank.length}
    (h : operateOn bank n i = .next bank') :
    ∃ t, exec i (bank.get n) = .next t ∧ bank' = bank.set n.val t := by
  unfold operateOn at h
  split at h
  · cases h
    exact ⟨_, ‹_›, rfl⟩
  · cases h
  · cases h

/-- Settles O33: the bank after is the bank before with one entry replaced. -/
theorem instancesShareNothing : Obligations.InstancesShareNothing := by
  intro bank bank' n i h
  obtain ⟨t, ht, rfl⟩ := operateOn_next h
  exact ⟨List.length_set, fun m hm => List.getElem?_set_ne hm.symm,
    t, ht, List.getElem?_set_self n.isLt⟩

end Sys2Proof.Proofs.Frame
end

section
/-! PROOF. The run invariants (R16 to R19): each holds after RESET and is kept by every operation,
and so by every step and in every reached state. -/

namespace Sys2Proof.Proofs.Invariant

open Sys2Proof Sys2Proof.Machine

variable {i : Instr} {s t : State}

/-! Each invariant is kept by every operation, from every state that has it. -/

/-- The cell under the cursor is visible (R16), so a hidden cell is another one. -/
theorem ne_cursorIndex_of_hiddenCell {k : DdIndex} (hk : hiddenCell k = true) :
    k ≠ cursorIndex s := by
  rintro rfl
  exact Bool.false_ne_true ((Laws.Ops.hiddenCell_visibleIndex s.row s.col).symm.trans hk)

theorem exec_keeps_hiddenSpaces (h : exec i s = .next t) (hs : HiddenSpaces s) :
    HiddenSpaces t := by
  intro k hk
  have hold : ddRead s k = Config.space := hs k hk
  obtain ⟨-, -, rfl⟩ | ⟨b, -, rfl⟩ | ⟨-, rfl⟩ | ⟨-, rfl⟩ | ⟨-, rfl⟩ | ⟨-, a, rfl⟩ :=
    Laws.Ops.exec_next_cases h
  · exact hold
  · simp [ne_cursorIndex_of_hiddenCell hk, hold]
  · simp
  · exact hold
  · simp
  · exact hold

theorem exec_keeps_cgramZero (h : exec i s = .next t) (hs : CgramZero s) : CgramZero t := by
  intro j
  by_cases hi : i = .reset
  · subst hi
    cases h
    simp
  · obtain ⟨-, hcgram, -⟩ := Frame.onlyListedOperationsWrite i s t h
    exact (Laws.Ops.cgRead_congr (hcgram hi) j).trans (hs j)

theorem exec_keeps_flagsAtReset (h : exec i s = .next t) (hs : FlagsAtReset s) :
    FlagsAtReset t := by
  by_cases hi : i = .reset
  · subst hi
    cases h
    exact ⟨rfl, rfl, rfl⟩
  · obtain ⟨-, -, -, hflags, -⟩ := Frame.onlyListedOperationsWrite i s t h
    obtain ⟨hd, hc, hb⟩ := hflags hi
    rwa [FlagsAtReset, hd, hc, hb]

theorem exec_keeps_memoryWf (h : exec i s = .next t) (hs : memoryWf s = true) :
    memoryWf t = true := by
  obtain ⟨-, -, rfl⟩ | ⟨b, -, rfl⟩ | ⟨-, rfl⟩ | ⟨-, rfl⟩ | ⟨-, rfl⟩ | ⟨-, a, rfl⟩ :=
    Laws.Ops.exec_next_cases h
  · exact hs
  · exact Laws.Ops.memoryWf_ddWrite hs _ b
  · simp [Laws.Ops.memoryWf_ddFill hs]
  · exact hs
  · simp [Laws.Ops.memoryWf_cgFill (Laws.Ops.memoryWf_ddFill hs _)]
  · exact hs

theorem exec_keeps_runInv (h : exec i s = .next t) (hs : RunInv s) : RunInv t := by
  obtain ⟨hwf, hhidden, hcgram, hflags⟩ := hs
  exact ⟨exec_keeps_memoryWf h hwf, exec_keeps_hiddenSpaces h hhidden,
    exec_keeps_cgramZero h hcgram, exec_keeps_flagsAtReset h hflags⟩

/-! The step. -/

/-- All a step that answers can do: nothing, or one operation on the state with a shorter line. -/
theorem step_next_cases (h : step s = .next t) :
    t = s ∨ ∃ i rest, exec i (withPending s rest) = .next t := by
  cases hp : s.pending with
  | nil =>
    rw [Laws.Ops.step_nil hp] at h
    cases h
    exact .inl rfl
  | cons r rest =>
    rw [Laws.Ops.step_cons hp] at h
    exact .inr ⟨decode r, rest, h⟩

/-- What every operation keeps and the host's line has no part in, every step keeps. -/
theorem step_keeps {P : State → Prop} (hpending : ∀ s rest, P s → P (withPending s rest))
    (hexec : ∀ {i s t}, exec i s = .next t → P s → P t)
    (h : step s = .next t) (hs : P s) : P t := by
  obtain rfl | ⟨i, rest, h⟩ := step_next_cases h
  · exact hs
  · exact hexec h (hpending s rest hs)

/-- Settles O38: every operation keeps each of the three, and none of them reads the host's line. -/
theorem stepKeepsRunInvariants : Obligations.StepKeepsRunInvariants := fun _ _ h =>
  ⟨step_keeps (fun _ _ hs => hs) exec_keeps_hiddenSpaces h,
   step_keeps (fun _ _ hs => hs) exec_keeps_cgramZero h,
   step_keeps (fun _ _ hs => hs) exec_keeps_flagsAtReset h⟩

/-! The state after RESET. -/

/-- Settles O23: an unlisted cell reads a space and an unlisted byte of CGRAM zero. -/
theorem resetStateHoldsTheListedValues : Obligations.ResetStateHoldsTheListedValues :=
  ⟨fun _ => rfl, fun _ => rfl, rfl, rfl, rfl, rfl, rfl⟩

/-- Settles O39: from the values of R21. -/
theorem resetStateMeetsTheInvariant : Obligations.ResetStateMeetsTheInvariant := by
  obtain ⟨hcells, hcgram, -, -, hflags⟩ := resetStateHoldsTheListedValues
  exact ⟨Laws.Ops.memoryWf_reset, fun i _ => hcells i, hcgram, hflags⟩

/-! Reached states. -/

theorem runOps_keeps {P : State → Prop} (hexec : ∀ {i s t}, exec i s = .next t → P s → P t)
    {ops : List Instr} (h : runOps ops s = .next t) (hs : P s) : P t := by
  induction ops generalizing s with
  | nil =>
    cases h
    exact hs
  | cons i ops ih =>
    obtain ⟨u, hu, h⟩ := Laws.Ops.runOps_cons_next h
    exact ih h (hexec hu hs)

theorem runInv_of_reachable (h : Reachable s) : RunInv s := by
  obtain ⟨ops, h⟩ := h
  exact runOps_keeps exec_keeps_runInv h resetStateMeetsTheInvariant

/-- The hidden cells by index (R25). -/
theorem hiddenCell_of_range {k : DdIndex}
    (h : (16 ≤ k.val ∧ k.val ≤ 39) ∨ (56 ≤ k.val ∧ k.val ≤ 79)) : hiddenCell k = true :=
  decide_eq_true (show 16 ≤ k.val % 40 by omega)

/-- Settles O40: the run invariant, with the hidden cells listed by index. -/
theorem reachedStatesKeepHiddenCellsCgramAndFlags :
    Obligations.ReachedStatesKeepHiddenCellsCgramAndFlags := by
  intro s h
  obtain ⟨-, hhidden, hcgram, hflags⟩ := runInv_of_reachable h
  exact ⟨fun k hk => hhidden k (hiddenCell_of_range hk), hcgram, hflags⟩

/-- Column 16 on of either row is hidden (R25). -/
theorem hiddenCell_cellIndex (r : BitVec 1) {c : Fin Config.rowStride} (h : 16 ≤ c.val) :
    hiddenCell (cellIndex r c) = true := by
  have hr := r.isLt
  have hc : c.val < 40 := c.isLt
  refine decide_eq_true ?_
  change 16 ≤ (r.toNat * 40 + c.val) % 40
  omega

theorem flagBits_of_flagsAtReset (h : FlagsAtReset s) : flagBits s = 0b100#3 := by
  obtain ⟨hd, hc, hb⟩ := h
  simp [flagBits, hd, hc, hb]

/-- Settles O42: each read answers what it reads, and the run invariant says what that is. -/
theorem reachedStatesAnswerTheDerivedValues : Obligations.ReachedStatesAnswerTheDerivedValues := by
  intro s h
  obtain ⟨-, hhidden, hcgram, hflags⟩ := runInv_of_reachable h
  refine ⟨fun r c hlo hhi => ?_, ?_, fun p => ?_⟩
  · have hc : c.toNat < Config.rowStride := Nat.lt_succ_of_le hhi
    rw [Laws.Ops.exec_readCell_of_lt s r hc, hhidden _ (hiddenCell_cellIndex r hlo)]
    rfl
  · rw [Laws.Ops.exec_readFlags, flagBits_of_flagsAtReset hflags]
    rfl
  · rw [Laws.Ops.exec_readCgram, hcgram]
    rfl

end Sys2Proof.Proofs.Invariant
end

section
/-! PROOF. CLEAR and RESET (R54, R82): RESET is CLEAR of a state whose CGRAM and flags are put at
their reset values first. -/

namespace Sys2Proof.Proofs.ClearReset

open Sys2Proof Sys2Proof.Machine

variable {s : State}

/-- RESET writes four disjoint parts of the state, so its order does not matter. -/
theorem reset_writes_comm (s : State) (v w : Byte) :
    resetFlags (homeCursor (cgFill (ddFill s v) w)) =
      homeCursor (ddFill (resetFlags (cgFill s w)) v) := rfl

theorem exec_reset_eq_exec_clear (s : State) :
    exec .reset s = exec .clear (resetFlags (cgFill s Config.cgramReset)) := by
  rw [Laws.Ops.exec_reset, Laws.Ops.exec_clear, reset_writes_comm]

/-- A canonical CGRAM of zeros is what RESET leaves there. -/
theorem cgFill_of_cgramZero (hwf : memoryWf s = true) (hzero : CgramZero s) :
    cgFill s Config.cgramReset = s := by
  obtain ⟨-, hcgram⟩ := Laws.Ops.memories_eq (Laws.Ops.memoryWf_cgFill hwf Config.cgramReset) hwf
    (fun _ => rfl) fun j => (Laws.Ops.cgRead_cgFill s _ j).trans (hzero j).symm
  calc cgFill s Config.cgramReset
      = { s with cgram := (cgFill s Config.cgramReset).cgram } := rfl
    _ = s := by rw [hcgram]

theorem resetFlags_of_flagsAtReset (h : FlagsAtReset s) : resetFlags s = s := by
  cases s
  obtain ⟨rfl, rfl, rfl⟩ := h
  rfl

/-- Settles O25: the two agree where the state already has the CGRAM and the flags of RESET, and the
display switched off tells them apart. -/
theorem clearEqualsResetOnlyInsideTheInvariant :
    Obligations.ClearEqualsResetOnlyInsideTheInvariant := by
  refine ⟨fun s h => ?_, withFlags State.reset false false false, Laws.Ops.memoryWf_reset,
    fun h => ?_⟩
  · obtain ⟨hwf, -, hzero, hflags⟩ := h
    rw [exec_reset_eq_exec_clear, cgFill_of_cgramZero hwf hzero, resetFlags_of_flagsAtReset hflags]
  · have hdisplay := congrArg State.displayOn (Host.Outcome.next.inj h)
    exact Bool.false_ne_true hdisplay

end Sys2Proof.Proofs.ClearReset
end

section
/-! PROOF. The reached states are exactly those of the run invariant (R20): from RESET, 32 writes
fill the visible window with any bytes, and more writes of the same bytes bring the cursor anywhere. -/

namespace Sys2Proof.Proofs.ReachedStates

open Sys2Proof Sys2Proof.Machine

variable {i : Instr} {s t : State}

theorem reachable_exec (hs : Reachable s) (h : exec i s = .next t) : Reachable t := by
  obtain ⟨ops, hops⟩ := hs
  refine ⟨ops ++ [i], ?_⟩
  rw [Laws.Ops.runOps_append hops, runOps, h]
  rfl

/-- The state after a WRITE_DATA of the byte that `target` holds under this state's cursor. -/
def copyNext (target u : State) : State :=
  advanceCursor (ddWrite u (cursorIndex u) (ddRead target (cursorIndex u)))

theorem exec_writeData_copyNext (target u : State) :
    exec (.writeData (ddRead target (cursorIndex u))) u = .next (copyNext target u) := rfl

/-- `n` such writes after RESET. -/
def copied (target : State) (n : Nat) : State := (copyNext target)^[n] State.reset

theorem copied_zero (target : State) : copied target 0 = State.reset := rfl

theorem copied_succ (target : State) (n : Nat) :
    copied target (n + 1) = copyNext target (copied target n) :=
  Function.iterate_succ_apply' _ _ _

theorem reachable_copied (target : State) (n : Nat) : Reachable (copied target n) := by
  induction n with
  | zero => exact ⟨[], rfl⟩
  | succ n ih =>
    rw [copied_succ]
    exact reachable_exec ih (exec_writeData_copyNext target _)

theorem windowPos_copied (target : State) (n : Nat) :
    (windowPos (copied target n).col (copied target n).row).toNat = n % 32 := by
  induction n with
  | zero => simp [copied_zero, State.reset]
  | succ n ih =>
    rw [copied_succ]
    calc (windowPos (copyNext target (copied target n)).col
            (copyNext target (copied target n)).row).toNat
        = ((windowPos (copied target n).col (copied target n).row).toNat + 1) % 32 :=
          Laws.Ops.windowPos_advance _ _
      _ = (n + 1) % 32 := by rw [ih, Nat.mod_add_mod]

theorem ddRead_copyNext (target u : State) (k : DdIndex) :
    ddRead (copyNext target u) k =
      if k = cursorIndex u then ddRead target k else ddRead u k := by
  rw [copyNext, Laws.Ops.ddRead_advanceCursor, Laws.Ops.ddRead_ddWrite]
  split_ifs with hk
  · rw [hk]
  · rfl

/-- After `n` writes every visible cell among the first `n` window positions is the target's. -/
theorem ddRead_copied (target : State) {r : BitVec 1} {c : BitVec 4} {n : Nat}
    (h : (windowPos c r).toNat < n) :
    ddRead (copied target n) (visibleIndex r c) = ddRead target (visibleIndex r c) := by
  induction n with
  | zero => exact absurd h (Nat.not_lt_zero _)
  | succ n ih =>
    rw [copied_succ, ddRead_copyNext]
    split_ifs with hk
    · rfl
    · refine ih (lt_of_le_of_ne (Nat.le_of_lt_succ h) fun hn => hk ?_)
      have hpos : windowPos c r = windowPos (copied target n).col (copied target n).row := by
        have hlt := (windowPos c r).isLt
        have hcur := windowPos_copied target n
        exact BitVec.eq_of_toNat_eq (by omega)
      exact Laws.Ops.visibleIndex_inj.2 (Laws.Ops.windowPos_inj.1 hpos)

/-- Two states under the run invariant with the same visible cells and cursor are one state of the
block: the invariant fixes all the rest. -/
theorem sameBlock_of_runInv (hs : RunInv s) (ht : RunInv t)
    (hvisible : ∀ r c, ddRead s (visibleIndex r c) = ddRead t (visibleIndex r c))
    (hcol : s.col = t.col) (hrow : s.row = t.row) : SameBlock s t := by
  obtain ⟨hswf, hshidden, hscgram, hsd, hsc, hsb⟩ := hs
  obtain ⟨htwf, hthidden, htcgram, htd, htc, htb⟩ := ht
  have hcells : ∀ k, ddRead s k = ddRead t k := by
    intro k
    cases hk : hiddenCell k with
    | true => rw [hshidden k hk, hthidden k hk]
    | false =>
      obtain ⟨r, c, rfl⟩ := Laws.Ops.exists_visibleIndex hk
      exact hvisible r c
  obtain ⟨hddram, hcgram⟩ := Laws.Ops.memories_eq hswf htwf hcells
    fun j => (hscgram j).trans (htcgram j).symm
  exact ⟨hddram, hcgram, hcol, hrow, hsd.trans htd.symm, hsc.trans htc.symm, hsb.trans htb.symm⟩

/-- Every state of the run invariant is, as a state of the block, one that copying it reaches: once
round the window, and on to its cursor. -/
theorem sameBlock_copied (h : RunInv s) :
    SameBlock (copied s (32 + (windowPos s.col s.row).toNat)) s := by
  have hlt := (windowPos s.col s.row).isLt
  have hpos : windowPos (copied s (32 + (windowPos s.col s.row).toNat)).col
      (copied s (32 + (windowPos s.col s.row).toNat)).row = windowPos s.col s.row :=
    BitVec.eq_of_toNat_eq (by rw [windowPos_copied]; omega)
  obtain ⟨hrow, hcol⟩ := Laws.Ops.windowPos_inj.1 hpos
  refine sameBlock_of_runInv (Invariant.runInv_of_reachable (reachable_copied s _)) h
    (fun r c => ddRead_copied s ?_) hcol hrow
  exact (windowPos c r).isLt.trans_le (Nat.le_add_right 32 _)

/-- The run invariant is about the block alone. -/
theorem runInv_of_sameBlock (hst : SameBlock s t) (hs : RunInv s) : RunInv t := by
  obtain ⟨hddram, hcgram, -, -, hd, hc, hb⟩ := hst
  obtain ⟨hwf, hhidden, hzero, hflags⟩ := hs
  refine ⟨(Laws.Ops.memoryWf_congr hddram hcgram).symm.trans hwf,
    fun k hk => (Laws.Ops.ddRead_congr hddram k).symm.trans (hhidden k hk),
    fun j => (Laws.Ops.cgRead_congr hcgram j).symm.trans (hzero j), ?_⟩
  rwa [FlagsAtReset, ← hd, ← hc, ← hb]

/-- Settles O41: a run keeps the invariant, and copying a state of the invariant reaches it. -/
theorem reachedStatesAreExactlyTheInvariantOnes :
    Obligations.ReachedStatesAreExactlyTheInvariantOnes := fun s =>
  ⟨fun ⟨_, hreach, hsame⟩ => runInv_of_sameBlock hsame (Invariant.runInv_of_reachable hreach),
   fun h => ⟨_, reachable_copied s _, sameBlock_copied h⟩⟩

end Sys2Proof.Proofs.ReachedStates
end

section
/-! PROOF. Where a glyph comes from (R67), and that CGRAM's glyphs are unlit in reached states. -/

namespace Sys2Proof.Proofs.Glyph

open Sys2Proof Sys2Proof.Machine

theorem glyph_get_of_lt (s : State) {k : Byte} (h : k.toNat < Config.cgSlots) (l : Fin 8) :
    (glyph s k).get l = cgRead s (slotLineIndex ⟨k.toNat, h⟩ l) := by
  rw [glyph, dif_pos h, Vector.get_ofFn]

theorem glyph_of_le (s : State) {k : Byte} (h : Config.cgSlots ≤ k.toNat) :
    glyph s k = Config.glyphBitmap k :=
  dif_neg (Nat.not_lt.2 h)

/-- A pixel is the bit of its line that its column shows (R68). -/
theorem glyphImage_get (g : Vector Byte 8) (y : Fin 8) (x : Fin 5) :
    ((glyphImage g).get y).get x = (g.get y).getLsbD (pixelBit x) := by
  rw [glyphImage, Vector.get_ofFn, Vector.get_ofFn]

/-- Settles O48: the two cases of a code, and a zero line has no bit set. -/
theorem glyphComesFromCgramBelowEight : Obligations.GlyphComesFromCgramBelowEight := by
  refine ⟨fun s k l hk => ⟨_, rfl, glyph_get_of_lt s hk l⟩, fun s k hk => glyph_of_le s hk,
    fun s k y x hreach hk => ?_⟩
  obtain ⟨-, -, hcgram, -⟩ := Invariant.runInv_of_reachable hreach
  rw [glyphImage_get, glyph_get_of_lt s hk, hcgram, BitVec.getLsbD_zero]

end Sys2Proof.Proofs.Glyph
end

section
/-! PROOF. The two spaces as memory: which index a cell and a glyph line have (R24 to R26), what a
store is read back as (R27, R52, R58), and that every step keeps both memories canonical. -/

namespace Sys2Proof.Proofs.Spaces

open Sys2Proof Sys2Proof.Machine

/-- Settles O37: no operation leaves the canonical form, and the host's line has no part in it. -/
theorem stepKeepsMemoryCanonical : Obligations.StepKeepsMemoryCanonical := fun _ _ hs h =>
  Invariant.step_keeps (fun _ _ hs => hs) Invariant.exec_keeps_memoryWf h hs

/-- Distinct cells of 2 by 40 have distinct indexes (R24). -/
theorem cellIndex_inj {r r' : BitVec 1} {c c' : Fin Config.rowStride} :
    cellIndex r c = cellIndex r' c' ↔ r = r' ∧ c = c' := by
  refine ⟨fun h => ?_, fun ⟨hr, hc⟩ => by rw [hr, hc]⟩
  have h : r.toNat * 40 + c.val = r'.toNat * 40 + c'.val := congrArg Fin.val h
  have hc : c.val < 40 := c.isLt
  have hc' : c'.val < 40 := c'.isLt
  exact ⟨BitVec.eq_of_toNat_eq (by omega), Fin.ext (by omega)⟩

/-- Settles O9: with a column below the stride, quotient and remainder by 40 are row and column. -/
theorem cellIndexIsABijection : Obligations.CellIndexIsABijection := by
  refine ⟨Laws.Ops.cellIndex_val, fun i => ?_, fun _ _ _ _ => cellIndex_inj.1⟩
  have hi : i.val < 80 := i.isLt
  have hrow : (BitVec.ofNat 1 (i.val / 40)).toNat = i.val / 40 := by
    rw [BitVec.toNat_ofNat]
    omega
  refine ⟨BitVec.ofNat 1 (i.val / 40), ⟨i.val % 40, Nat.mod_lt _ (by decide)⟩, Fin.ext ?_,
    hrow, rfl⟩
  rw [Laws.Ops.cellIndex_val, hrow]
  exact Nat.div_add_mod' i.val 40

/-- Settles O10: with a line below 8, quotient and remainder by 8 are slot and line. -/
theorem glyphLineIndexIsABijection : Obligations.GlyphLineIndexIsABijection := by
  refine ⟨Laws.Ops.slotLineIndex_val, fun j => ?_, fun k k' l l' h => ?_⟩
  · have hj : j.val < 64 := j.isLt
    refine ⟨⟨j.val / 8, by omega⟩, ⟨j.val % 8, by omega⟩, Fin.ext ?_⟩
    exact Nat.div_add_mod' j.val 8
  · have h : k.val * 8 + l.val = k'.val * 8 + l'.val := congrArg Fin.val h
    exact ⟨Fin.ext (by omega), Fin.ext (by omega)⟩

/-- No other index is hidden (R25). -/
theorem hiddenCell_iff_range {i : DdIndex} :
    hiddenCell i = true ↔ 16 ≤ i.val ∧ i.val ≤ 39 ∨ 56 ≤ i.val ∧ i.val ≤ 79 := by
  refine ⟨fun h => ?_, Invariant.hiddenCell_of_range⟩
  have hi : i.val < 80 := i.isLt
  have h : 16 ≤ i.val % 40 := of_decide_eq_true h
  omega

/-- A cell is visible exactly when it is not hidden (R25). -/
theorem exists_visibleIndex_iff {i : DdIndex} :
    (∃ r c, visibleIndex r c = i) ↔ ¬ hiddenCell i = true := by
  rw [Bool.not_eq_true]
  refine ⟨?_, Laws.Ops.exists_visibleIndex⟩
  rintro ⟨r, c, rfl⟩
  exact Laws.Ops.hiddenCell_visibleIndex r c

/-- Settles O11: the visible cells are those of 0..79 outside the hidden ranges. -/
theorem visibleWindowIndexes : Obligations.VisibleWindowIndexes := by
  intro i
  have hi : i.val < 80 := i.isLt
  refine ⟨?_, hiddenCell_iff_range⟩
  rw [exists_visibleIndex_iff, hiddenCell_iff_range]
  omega

/-- Settles O12: by the law of each space, and each store writes one memory. -/
theorem spaceWritesAreReadBack : Obligations.SpaceWritesAreReadBack :=
  ⟨Laws.Ops.ddRead_ddWrite, Laws.Ops.cgRead_cgWrite, Laws.State.ddWrite_cgram,
   Laws.State.cgWrite_ddram⟩

/-- A cell of 2 by 40 is the one under the cursor exactly when it has its row and column (R16). -/
theorem cellIndex_eq_cursorIndex {s : State} {r : BitVec 1} {c : Fin Config.rowStride} :
    cellIndex r c = cursorIndex s ↔ r = s.row ∧ c.val = s.col.toNat :=
  cellIndex_inj.trans (and_congr_right fun _ => Fin.ext_iff)

/-- Settles O26: the advance stores nothing, so the read meets the law of the one store, at the cell
of the cursor before it. -/
theorem writtenByteIsReadBack : Obligations.WrittenByteIsReadBack := by
  intro b s t r c h hc
  cases h
  have hc : c.toNat < Config.rowStride := Nat.lt_succ_of_le hc
  refine ⟨_, _, Laws.Ops.exec_readCell_of_lt _ r hc, Laws.Ops.exec_readCell_of_lt s r hc, ?_⟩
  rw [Laws.Ops.ddRead_advanceCursor, Laws.Ops.ddRead_ddWrite]
  simp only [cellIndex_eq_cursorIndex, Laws.State.answerWith_answer]
  split_ifs <;> rfl

end Sys2Proof.Proofs.Spaces
end

section
/-! PROOF. Operations one after another: a read may be repeated (R31), a run of writes counts on the
cursor (R51), and the machine's steps take the operations of a line, or of an infinite run, in order
(R34, R89). -/

namespace Sys2Proof.Proofs.Runs

open Sys2Proof Sys2Proof.Machine

variable {i : Instr} {s t : State}

/-- A read that completes hands over one value, whatever the host last held. -/
theorem exec_read_next (hread : isRead i = true) (h : exec i s = .next t) :
    ∃ a, t = answerWith s a ∧ ∀ a', exec i (answerWith s a') = .next (answerWith s a) := by
  cases i with
  | readCell row col =>
    by_cases hcol : col.toNat < Config.rowStride
    · rw [Laws.Ops.exec_readCell_of_lt s row hcol] at h
      cases h
      exact ⟨_, rfl, fun _ => Laws.Ops.exec_readCell_of_lt _ row hcol⟩
    · rw [Laws.Ops.exec_readCell_of_le s row (by omega)] at h
      cases h
  | readCursor => cases h; exact ⟨_, rfl, fun _ => rfl⟩
  | readFlags => cases h; exact ⟨_, rfl, fun _ => rfl⟩
  | readCgram index => cases h; exact ⟨_, rfl, fun _ => rfl⟩
  | _ => cases hread

/-- Settles O27: a read writes the host's answer alone, and does not depend on it. -/
theorem readsChangeNothingAndRepeat : Obligations.ReadsChangeNothingAndRepeat := by
  intro i s t hread h
  obtain ⟨a, rfl, hrepeat⟩ := exec_read_next hread h
  exact ⟨⟨rfl, rfl, rfl, rfl, rfl, rfl, rfl⟩, rfl, hrepeat a⟩

/-- A data write moves the cursor one window position on (R51, R52). -/
theorem windowPos_of_writeData (hwrite : isWriteData i = true) (h : exec i s = .next t) :
    (windowPos t.col t.row).toNat = ((windowPos s.col s.row).toNat + 1) % 32 := by
  obtain ⟨b, rfl⟩ := Frame.exists_of_isWriteData hwrite
  cases h
  exact Laws.Ops.windowPos_advance s.col s.row

/-- A read or an ignored command leaves the cursor where it is (R31, R56). -/
theorem windowPos_of_read_or_ignored (hi : isRead i = true ∨ (ignoredCode i).isSome = true)
    (h : exec i s = .next t) : windowPos t.col t.row = windowPos s.col s.row := by
  obtain hread | hcode := hi
  · obtain ⟨a, rfl, -⟩ := exec_read_next hread h
    rfl
  · obtain ⟨k, hk⟩ := Option.isSome_iff_exists.1 hcode
    rw [Laws.Ops.exec_ignored s hk] at h
    cases h
    rfl

/-- Settles O32, by induction on the operations: each data write counts one, the others none. -/
theorem cursorCountsTheDataWrites : Obligations.CursorCountsTheDataWrites := by
  intro ops
  induction ops with
  | nil =>
    intro s t _ h
    cases h
    exact (Nat.mod_eq_of_lt (windowPos s.col s.row).isLt).symm
  | cons i ops ih =>
    intro s t hops h
    obtain ⟨hi, hops⟩ := List.forall_mem_cons.1 hops
    obtain ⟨u, hu, h⟩ := Laws.Ops.runOps_cons_next h
    rw [ih u t hops h]
    by_cases hwrite : isWriteData i = true
    · rw [windowPos_of_writeData hwrite hu, List.filter_cons_of_pos hwrite, List.length_cons]
      omega
    · rw [windowPos_of_read_or_ignored (hi.resolve_left hwrite) hu,
        List.filter_cons_of_neg hwrite]

/-- A step that answers is the first of a run, and the rest goes on from where it leads. -/
theorem run_succ_of_next {M : Host.Core} {n : Nat} {s t : M.State} (h : M.step s = .next t) :
    M.run (n + 1) s = M.run n t := by
  rw [Host.Core.run, h]

/-- A refused step is refused whatever is still to run. -/
theorem run_succ_of_refused {M : Host.Core} {n : Nat} {s : M.State} {e : M.Refusal}
    (h : M.step s = .refused e) : M.run (n + 1) s = .refused e := by
  rw [Host.Core.run, h]

/-- Settles O36, by induction on the operations: each step takes the head of the line, and the
operation it runs neither reads nor writes the rest. -/
theorem stepsTakeOperationsInOrder : Obligations.StepsTakeOperationsInOrder := by
  intro ops
  induction ops with
  | nil =>
    intro s rest _ hp
    exact congrArg Host.Outcome.next (congrArg (withPending s) hp)
  | cons i ops ih =>
    intro s rest hwf hp
    obtain ⟨hi, hops⟩ := List.forall_mem_cons.1 hwf
    have hstep : step s = exec i (withPending s (ops.map encode ++ rest)) :=
      Step.step_encode_cons hi hp
    have hexec := Laws.Ops.exec_withPending (withPending s (ops.map encode ++ rest)) i rest
    -- both sides now start from the state the first step executes on
    change _ = runOps (i :: ops) (withPending (withPending s (ops.map encode ++ rest)) rest)
    rw [runOps, hexec]
    cases hout : exec i (withPending s (ops.map encode ++ rest)) with
    | next t =>
      obtain ⟨-, -, -, -, -, hpending⟩ := Frame.onlyListedOperationsWrite _ _ _ hout
      exact (run_succ_of_next (hstep.trans hout)).trans (ih t rest hops hpending)
    | fault f => cases f
    | refused e => exact run_succ_of_refused (hstep.trans hout)

/-- Settles O53: an issued request executes what it decodes to, which is the run's operation. -/
theorem stepFollowsAnInfiniteRun : Obligations.StepFollowsAnInfiniteRun := by
  intro ops run hrun hwf n
  obtain ⟨-, hnext⟩ := hrun
  rw [Laws.Ops.issue_eq, Decode.decode_encode (hwf n)]
  exact hnext n

end Sys2Proof.Proofs.Runs
end

section
/-! PROOF. The words and the code map the other way round (R41 to R46, R50): every word is its two
fields, every code falls in one row of R44, and the rows of the opcode table exclude each other. -/

namespace Sys2Proof.Proofs.Encoding

open Sys2Proof Sys2Proof.Machine Sys2Proof.Proofs.Decode

variable {k : Byte} {i : Instr}

/-! The fields of a word. -/

/-- A word is its two fields put together, so nothing of it is dropped (R41). -/
theorem txnWord_txnRs_txnDb (t : TxnWord) : txnWord (txnRs t) (txnDb t) = t := by
  refine BitVec.eq_of_getLsbD_eq fun n hn => ?_
  rw [txnWord, BitVec.getLsbD_append, txnRs, txnDb, BitVec.getLsbD_extractLsb']
  by_cases h8 : n < 8
  · simp [h8]
  · obtain rfl : n = 8 := by omega
    simp

theorem exists_eq_txnWord (t : TxnWord) : ∃ rs db, t = txnWord rs db :=
  ⟨_, _, (txnWord_txnRs_txnDb t).symm⟩

/-- A command's word is `0x000 + k` (R47). -/
theorem ofNat_toNat_eq_txnWord (k : Byte) : BitVec.ofNat 9 k.toNat = txnWord false k := by
  refine BitVec.eq_of_toNat_eq ?_
  rw [txnWord, BitVec.toNat_append, BitVec.toNat_ofNat, Nat.mod_eq_of_lt (by omega)]
  simp

/-! The code map of R44. -/

/-- Every code but those of CLEAR and HOME is ignored, keeps its value, and lies in the range of the
row it falls in (R43, R44). -/
theorem decodeCommand_ignored (hclear : k ≠ Config.clearCode) (hhome : k ≠ Config.homeCode) :
    ignoredCode (decodeCommand k) = some k ∧ (decodeCommand k).wf = true := by
  have hk := k.isLt
  by_cases h4 : 4 ≤ k.toNat
  · rw [decodeCommand_of_four_le h4]
    split_ifs <;> exact ⟨rfl, codeIn_iff.2 ⟨by omega, by omega⟩⟩
  · obtain rfl | rfl : k = 0x00#8 ∨ k = 0x03#8 := by
      simp only [Config.clearCode, Config.homeCode] at hclear hhome
      bv_omega
    · exact ⟨rfl, rfl⟩
    · exact ⟨rfl, rfl⟩

theorem decodeCommand_cases (k : Byte) :
    (k = Config.clearCode ∧ decodeCommand k = .clear) ∨
    (k = Config.homeCode ∧ decodeCommand k = .home) ∨
    (ignoredCode (decodeCommand k) = some k ∧ (decodeCommand k).wf = true) := by
  by_cases hclear : k = Config.clearCode
  · exact .inl ⟨hclear, by rw [hclear]; rfl⟩
  by_cases hhome : k = Config.homeCode
  · exact .inr (.inl ⟨hhome, by rw [hhome]; rfl⟩)
  exact .inr (.inr (decodeCommand_ignored hclear hhome))

theorem encode_of_ignoredCode (h : ignoredCode i = some k) :
    encode i = .txn (txnWord false k) := by
  cases i <;> cases h <;> rfl

theorem wf_decodeCommand (k : Byte) : (decodeCommand k).wf = true := by
  obtain ⟨-, h⟩ | ⟨-, h⟩ | ⟨-, hwf⟩ := decodeCommand_cases k
  · rw [h]; rfl
  · rw [h]; rfl
  · exact hwf

theorem encode_decodeCommand (k : Byte) :
    encode (decodeCommand k) = .txn (txnWord false k) := by
  obtain ⟨rfl, h⟩ | ⟨rfl, h⟩ | ⟨h, -⟩ := decodeCommand_cases k
  · rw [h]; rfl
  · rw [h]; rfl
  · exact encode_of_ignoredCode h

/-! The round trips. -/

/-- Settles O1: the fields of an encoded word, and the code map one range at a time. -/
theorem decodeOfEncodeIsTheOperation : Obligations.DecodeOfEncodeIsTheOperation :=
  fun _ h => decode_encode h

/-- Settles O2: a word is data or a command by its RS, a command falls in its row of R44, and the
other requests are their operations' own. -/
theorem encodeOfDecodeIsTheRequest : Obligations.EncodeOfDecodeIsTheRequest := by
  intro r
  cases r with
  | txn t =>
    obtain ⟨rs, db, rfl⟩ := exists_eq_txnWord t
    cases rs with
    | true => rw [decode_txnWord_true]; exact ⟨rfl, rfl⟩
    | false => rw [decode_txnWord_false]; exact ⟨wf_decodeCommand db, encode_decodeCommand db⟩
  | reset => exact ⟨rfl, rfl⟩
  | readCell row col => exact ⟨rfl, rfl⟩
  | readCursor => exact ⟨rfl, rfl⟩
  | readFlags => exact ⟨rfl, rfl⟩
  | readCgram index => exact ⟨rfl, rfl⟩

/-- Settles O3: RS is tested first, then the whole byte against the codes of CLEAR and HOME. -/
theorem transactionDecodeTestsRSFirst : Obligations.TransactionDecodeTestsRSFirst := by
  intro t
  obtain ⟨rs, db, rfl⟩ := exists_eq_txnWord t
  have hrs : (txnWord rs db).getLsbD 8 = rs := txnRs_txnWord rs db
  have hdb : (txnWord rs db).extractLsb' 0 8 = db := txnDb_txnWord rs db
  rw [hrs, hdb]
  refine ⟨?_, ?_⟩
  · rintro rfl
    exact decode_txnWord_true db
  · rintro rfl
    rw [decode_txnWord_false]
    refine ⟨?_, ?_, fun hclear hhome => (decodeCommand_ignored hclear hhome).1⟩
    · rintro rfl; rfl
    · rintro rfl; rfl

/-! The rows of the opcode table. -/

/-- Two rows that both match a word prescribe the same bits where both masks look. -/
theorem and_mask_eq_of_rowMatches {t : TxnWord} {a b : TxnWord × TxnWord}
    (ha : rowMatches t a = true) (hb : rowMatches t b = true) : a.1 &&& b.2 = b.1 &&& a.2 := by
  rw [← eq_of_beq ha, ← eq_of_beq hb, BitVec.and_assoc, BitVec.and_assoc, BitVec.and_comm a.2]

/-- Any two of the eleven rows prescribe different bits somewhere (R44). -/
theorem txnRows_pairwise_exclusive :
    txnRows.Pairwise fun a b => a.1 &&& b.2 ≠ b.1 &&& a.2 := by decide

theorem row_mem_txnRows {row : TxnWord × TxnWord} (h : i.row = some row) : row ∈ txnRows := by
  cases i <;> cases h <;> decide

theorem wordInRow (i : Instr) : Laws.WordInRow.Statement i := by
  cases i with
  | writeData b => exact Laws.WordInRow.writeData b
  | clear => exact Laws.WordInRow.clear
  | home => exact Laws.WordInRow.home
  | cmdIgnored00 => exact Laws.WordInRow.cmdIgnored00
  | cmdIgnored03 => exact Laws.WordInRow.cmdIgnored03
  | cmdIgnored04To07 k => exact Laws.WordInRow.cmdIgnored04To07 k
  | cmdIgnored08To0F k => exact Laws.WordInRow.cmdIgnored08To0F k
  | cmdIgnored10To1F k => exact Laws.WordInRow.cmdIgnored10To1F k
  | cmdIgnored20To3F k => exact Laws.WordInRow.cmdIgnored20To3F k
  | cmdIgnored40To7F k => exact Laws.WordInRow.cmdIgnored40To7F k
  | cmdIgnored80ToFF k => exact Laws.WordInRow.cmdIgnored80ToFF k
  | reset => exact Laws.WordInRow.reset
  | readCell row col => exact Laws.WordInRow.readCell row col
  | readCursor => exact Laws.WordInRow.readCursor
  | readFlags => exact Laws.WordInRow.readFlags
  | readCgram index => exact Laws.WordInRow.readCgram index

/-- A word lies in the row of the operation it decodes to. -/
theorem exists_row_decode_txn (t : TxnWord) :
    ∃ row, (decode (.txn t)).row = some row ∧ rowMatches t row = true := by
  obtain ⟨hwf, henc⟩ := encodeOfDecodeIsTheRequest (.txn t)
  have h := wordInRow (decode (.txn t)) hwf
  rwa [henc] at h

/-- Of a list whose members exclude each other in pairs, a filter that lets one through keeps that
one alone. -/
theorem filter_eq_singleton {α : Type} {p : α → Bool} {l : List α} {a : α}
    (hl : l.Pairwise fun x y => ¬ (p x = true ∧ p y = true)) (ha : a ∈ l) (hp : p a = true) :
    l.filter p = [a] := by
  induction l with
  | nil => cases ha
  | cons x l ih =>
    obtain ⟨hx, hl⟩ := List.pairwise_cons.1 hl
    by_cases hpx : p x = true
    · have hnone : l.filter p = [] := List.filter_eq_nil_iff.2 fun y hy hpy => hx y hy ⟨hpx, hpy⟩
      obtain rfl : a = x := (List.mem_cons.1 ha).resolve_right fun h => hx a h ⟨hpx, hp⟩
      rw [List.filter_cons_of_pos hpx, hnone]
    · have hal : a ∈ l := (List.mem_cons.1 ha).resolve_left fun h => hpx (h ▸ hp)
      rw [List.filter_cons_of_neg hpx, ih hl hal]

/-- Settles O4: the decoded operation's row matches the word, and no two rows match one word. -/
theorem opcodeTableRowsPartitionTheWords : Obligations.OpcodeTableRowsPartitionTheWords := by
  intro t
  obtain ⟨row, hrow, hmatch⟩ := exists_row_decode_txn t
  have hexcl : txnRows.Pairwise fun a b => ¬ (rowMatches t a = true ∧ rowMatches t b = true) :=
    txnRows_pairwise_exclusive.imp fun hne h => hne (and_mask_eq_of_rowMatches h.1 h.2)
  rw [hrow]
  exact filter_eq_singleton hexcl (row_mem_txnRows hrow) hmatch

/-- Settles O5: each word is decoded as it stands. -/
theorem listedWordsDecodeAsListed : Obligations.ListedWordsDecodeAsListed := by
  unfold Obligations.ListedWordsDecodeAsListed
  decide

/-! Words of the opcode table, and assembly. -/

/-- A nine-bit word is the table's word of its value, in the table's sixteen bits. -/
theorem tableRequest_toNat (t : TxnWord) : tableRequest 16 t.toNat = some (.txn t) := by
  rw [tableRequest, if_pos ⟨by decide, t.isLt⟩, BitVec.ofNat_toNat, BitVec.setWidth_eq]

/-- Settles O35: the placed word is the request at the head of the host's line. -/
theorem placedTableWordRunsNext : Obligations.PlacedTableWordRunsNext := by
  intro s t
  rw [decodeTableWord, State.withFetchWord, presentTableWord, tableRequest_toNat]
  exact ⟨rfl, Laws.Ops.issue_eq (.txn t) s⟩

/-- Settles O51: CMD's code is the byte of its word, and the rest stands in the expansion as it is
listed. -/
theorem printAndEventsExpandToOperations : Obligations.PrintAndEventsExpandToOperations := by
  refine ⟨rfl, fun _ _ => rfl, fun k => ?_, fun _ => rfl, rfl, rfl, rfl, rfl⟩
  rw [ofNat_toNat_eq_txnWord, decode_txnWord_false]
  rfl

end Sys2Proof.Proofs.Encoding
end

section
/-! PROOF. The ports: an input sample's operation (R72, D19) and what the outputs show (R40, R58 to
R61). -/

namespace Sys2Proof.Proofs.Ports

open Sys2Proof Sys2Proof.Machine

variable {p : InPorts}

theorem portRequest_of_reset (h : p.reset = true) : portRequest p = some .reset := if_pos h

theorem portRequest_of_wrValid (hreset : p.reset = false) (h : p.wrValid = true) :
    portRequest p = some (.txn (txnWord p.wrRs p.wrDb)) := by
  simp [portRequest, hreset, h]

theorem portRequest_of_neither (hreset : p.reset = false) (h : p.wrValid = false) :
    portRequest p = none := by
  simp [portRequest, hreset, h]

theorem signalStep_of_some {r : Request} (h : portRequest p = some r) (s : State) :
    (signalStep p s).2 = exec (decode r) s := by
  simp [signalStep, h]

theorem signalStep_of_none (h : portRequest p = none) (s : State) :
    (signalStep p s).2 = .next s := by
  simp [signalStep, h]

/-- Settles O43: a sample performs the request of its strobes, where reset comes before wr_valid. -/
theorem signalStepLetsResetWin : Obligations.SignalStepLetsResetWin := fun _ s =>
  ⟨rfl,
   fun hreset => signalStep_of_some (portRequest_of_reset hreset) s,
   fun hreset h => signalStep_of_some (portRequest_of_wrValid hreset h) s,
   fun hreset h => signalStep_of_none (portRequest_of_neither hreset h) s⟩

theorem outPorts_rdData_of_lt (s : State) (h : p.rdCol.toNat < Config.rowStride) :
    (outPorts p s).rdData = some (ddRead s (cellIndex p.rdRow ⟨p.rdCol.toNat, h⟩)) := by
  simp [outPorts, Laws.Ops.readCellIndex_of_lt p.rdRow h]

theorem outPorts_rdData_of_le (s : State) (h : Config.rowStride ≤ p.rdCol.toNat) :
    (outPorts p s).rdData = none := by
  simp [outPorts, Laws.Ops.readCellIndex_of_le p.rdRow h]

/-- Settles O44: port and read name the same cell, in and outside the domain of READ_CELL. -/
theorem portsShowWhatReadsAnswer : Obligations.PortsShowWhatReadsAnswer := by
  intro p s
  refine ⟨?_, Laws.Ops.exec_readCursor s, Laws.Ops.exec_readFlags s,
    Laws.Ops.exec_readCgram s p.cgAddr⟩
  split
  · next hc =>
    have hlt : p.rdCol.toNat < Config.rowStride := Nat.lt_succ_of_le hc
    exact ⟨_, outPorts_rdData_of_lt s hlt, Laws.Ops.exec_readCell_of_lt s p.rdRow hlt⟩
  · next hc => exact outPorts_rdData_of_le s (Nat.lt_of_not_le hc)

end Sys2Proof.Proofs.Ports
end

section
/-! PROOF. The advance (R51): the pseudocode's two cases, and one cycle through the 32 cursors. -/

namespace Sys2Proof.Proofs.Advance

open Sys2Proof Sys2Proof.Machine

variable {c : BitVec 4}

/-- Before the last visible column the column alone moves on. -/
theorem advance_of_ne (h : c.toNat + 1 ≠ 16) (r : BitVec 1) : advance c r = (c + 1#4, r) := by
  simp only [advance, Config.visibleCols, h, if_false, BitVec.ofNat_add, BitVec.ofNat_toNat,
    BitVec.setWidth_eq]

/-- At the last visible column the column starts again, in the other row. -/
theorem advance_of_eq (h : c.toNat + 1 = 16) (r : BitVec 1) :
    advance c r = (0#4, if r.toNat + 1 = 2 then 0#1 else 1#1) := by
  simp only [advance, Config.visibleCols, Config.rows, h, if_true]
  split_ifs with hr
  · rfl
  · obtain hr : r.toNat + 1 = 1 := by omega
    rw [hr]

/-- Settles O6: the pseudocode's cases by column, and the position by the law of the advance. -/
theorem advanceWrapsAtColumnSixteen : Obligations.AdvanceWrapsAtColumnSixteen := by
  refine fun c r => ⟨?_, ?_⟩
  · by_cases hc : c.toNat + 1 = 16
    · rw [if_pos hc, advance_of_eq hc]
    · rw [if_neg hc, advance_of_ne hc]
  · rw [Laws.Ops.windowPos_advance, Laws.Ops.windowPos_toNat]

/-- `n` advances move the window position on by `n`, round the ring of 32. -/
theorem windowPos_iterate_advance (n : Nat) (p : BitVec 4 × BitVec 1) :
    (windowPos ((Function.uncurry advance)^[n] p).1 ((Function.uncurry advance)^[n] p).2).toNat =
      ((windowPos p.1 p.2).toNat + n) % 32 := by
  induction n with
  | zero => exact (Nat.mod_eq_of_lt (windowPos p.1 p.2).isLt).symm
  | succ n ih =>
    rw [Function.iterate_succ_apply', Function.uncurry, Laws.Ops.windowPos_advance, ih]
    omega

/-- Equal cursors are those of equal window position. -/
theorem cursor_eq_iff {p q : BitVec 4 × BitVec 1} :
    p = q ↔ (windowPos p.1 p.2).toNat = (windowPos q.1 q.2).toNat := by
  rw [← BitVec.toNat_eq, Laws.Ops.windowPos_inj, Prod.ext_iff, and_comm]

/-- Settles O7: a position below 32 is met again exactly after whole rounds of the ring. -/
theorem advanceIsOneCycleOfThirtyTwo : Obligations.AdvanceIsOneCycleOfThirtyTwo := by
  intro n c r
  have hp := (windowPos c r).isLt
  change (Function.uncurry advance)^[n] (c, r) = (c, r) ↔ 32 ∣ n
  rw [cursor_eq_iff, windowPos_iterate_advance]
  omega

end Sys2Proof.Proofs.Advance
end

section
/-! PROOF. WRITE_DATA (R52): one store and one advance, and a run of them round the ring of the 32
visible cells. -/

namespace Sys2Proof.Proofs.WriteData

open Sys2Proof Sys2Proof.Machine

/-! One write. -/

/-- A data byte's word is `0x100 + b` (R47). -/
theorem ofNat_add_toNat_eq_txnWord (b : Byte) :
    BitVec.ofNat 9 (0x100 + b.toNat) = txnWord true b := by
  refine BitVec.eq_of_toNat_eq ?_
  have hb := b.isLt
  rw [txnWord, BitVec.toNat_append, BitVec.toNat_ofNat, Nat.mod_eq_of_lt (by omega)]
  exact Nat.two_pow_add_eq_or_of_lt hb 1

/-- Settles O13: the state after is one store under the old cursor and an advance. -/
theorem writeDataStoresAndAdvances : Obligations.WriteDataStoresAndAdvances := by
  intro b s
  refine ⟨?_, _, Laws.Ops.exec_writeData s b, rfl, ?_, fun k hk => ?_, rfl, rfl, rfl, rfl, rfl,
    rfl, rfl⟩
  · rw [ofNat_add_toNat_eq_txnWord, Decode.decode_txnWord_true]
  · rw [Laws.Ops.ddRead_advanceCursor, Laws.Ops.ddRead_ddWrite, if_pos rfl]
  · rw [Laws.Ops.ddRead_advanceCursor, Laws.Ops.ddRead_ddWrite, if_neg hk]

/-! The ring: the visible cells in the order in which writes fill them. -/

/-- The cursor's position in the window. -/
def cursorPos (s : State) : Nat := (windowPos s.col s.row).toNat

/-- The visible cell at window position `n` modulo 32. -/
def ringCell (n : Nat) : DdIndex := visibleIndex (BitVec.ofNat 1 (n / 16)) (BitVec.ofNat 4 n)

theorem visibleIndex_eq_ringCell {r : BitVec 1} {c : BitVec 4} {n : Nat} :
    visibleIndex r c = ringCell n ↔ (windowPos c r).toNat = n % 32 := by
  have hr := r.isLt
  have hc := c.isLt
  rw [ringCell, Laws.Ops.visibleIndex_inj, BitVec.toNat_eq, BitVec.toNat_eq, BitVec.toNat_ofNat,
    BitVec.toNat_ofNat, Laws.Ops.windowPos_toNat]
  omega

theorem ringCell_eq_iff {m n : Nat} : ringCell m = ringCell n ↔ m % 32 = n % 32 := by
  rw [ringCell, visibleIndex_eq_ringCell, Laws.Ops.windowPos_toNat, BitVec.toNat_ofNat,
    BitVec.toNat_ofNat]
  omega

theorem cursorIndex_eq_ringCell (s : State) : cursorIndex s = ringCell (cursorPos s) :=
  visibleIndex_eq_ringCell.2 (Nat.mod_eq_of_lt (windowPos s.col s.row).isLt).symm

theorem ne_ringCell_of_hiddenCell {i : DdIndex} (h : hiddenCell i = true) (n : Nat) :
    i ≠ ringCell n := by
  rintro rfl
  exact Bool.false_ne_true ((Laws.Ops.hiddenCell_visibleIndex _ _).symm.trans h)

/-! A run of writes. -/

/-- The state after a WRITE_DATA of `b`. -/
def written (s : State) (b : Byte) : State := advanceCursor (ddWrite s (cursorIndex s) b)

/-- The state after a WRITE_DATA of each byte in order. -/
def writtenAll (bs : List Byte) (s : State) : State := bs.foldl written s

theorem runOps_writeData (bs : List Byte) (s : State) :
    runOps (bs.map .writeData) s = .next (writtenAll bs s) := by
  induction bs generalizing s with
  | nil => rfl
  | cons b bs ih => exact ih (written s b)

theorem cursorPos_written (s : State) (b : Byte) :
    cursorPos (written s b) = (cursorPos s + 1) % 32 :=
  Laws.Ops.windowPos_advance s.col s.row

theorem ddRead_written (s : State) (b : Byte) (i : DdIndex) :
    ddRead (written s b) i = if i = ringCell (cursorPos s) then b else ddRead s i := by
  rw [written, Laws.Ops.ddRead_advanceCursor, Laws.Ops.ddRead_ddWrite, cursorIndex_eq_ringCell]

/-- From the second byte on, a run writes where the run of the rest does. -/
theorem ringCell_cursorPos_written (s : State) (b : Byte) (k : Nat) :
    ringCell (cursorPos (written s b) + k) = ringCell (cursorPos s + (k + 1)) := by
  rw [ringCell_eq_iff, cursorPos_written]
  omega

/-- What one write leaves alone, a run of them leaves alone. -/
theorem writtenAll_keeps {α : Type} {f : State → α} (hf : ∀ s b, f (written s b) = f s)
    (bs : List Byte) (s : State) : f (writtenAll bs s) = f s := by
  induction bs generalizing s with
  | nil => rfl
  | cons b bs ih => exact (ih (written s b)).trans (hf s b)

theorem cursorPos_writtenAll (bs : List Byte) (s : State) :
    cursorPos (writtenAll bs s) = (cursorPos s + bs.length) % 32 := by
  induction bs generalizing s with
  | nil => exact (Nat.mod_eq_of_lt (windowPos s.col s.row).isLt).symm
  | cons b bs ih =>
    rw [writtenAll, List.foldl_cons, ← writtenAll, ih, cursorPos_written, List.length_cons]
    omega

/-- A cell at none of the positions of the run keeps its byte. -/
theorem ddRead_writtenAll_of_ne {bs : List Byte} {s : State} {i : DdIndex}
    (h : ∀ k < bs.length, i ≠ ringCell (cursorPos s + k)) :
    ddRead (writtenAll bs s) i = ddRead s i := by
  induction bs generalizing s with
  | nil => rfl
  | cons b bs ih =>
    have hrest : ∀ k < bs.length, i ≠ ringCell (cursorPos (written s b) + k) := fun k hk => by
      rw [ringCell_cursorPos_written]
      exact h (k + 1) (Nat.succ_lt_succ hk)
    calc ddRead (writtenAll (b :: bs) s) i
        = ddRead (written s b) i := ih hrest
      _ = ddRead s i := (ddRead_written s b i).trans (if_neg (h 0 (Nat.succ_pos _)))

/-- A byte with fewer than 32 bytes after it is not overwritten. -/
theorem ddRead_writtenAll_ringCell {bs : List Byte} {s : State} {k : Nat} (hk : k < bs.length)
    (hlast : bs.length ≤ k + 32) :
    ddRead (writtenAll bs s) (ringCell (cursorPos s + k)) = bs[k] := by
  induction bs generalizing s k with
  | nil => exact absurd hk (Nat.not_lt_zero k)
  | cons b bs ih =>
    rw [List.length_cons] at hk hlast
    cases k with
    | zero =>
      have hrest : ∀ j < bs.length,
          ringCell (cursorPos s) ≠ ringCell (cursorPos (written s b) + j) := fun j hj => by
        rw [ringCell_cursorPos_written, Ne, ringCell_eq_iff]
        omega
      calc ddRead (writtenAll (b :: bs) s) (ringCell (cursorPos s))
          = ddRead (written s b) (ringCell (cursorPos s)) := ddRead_writtenAll_of_ne hrest
        _ = b := (ddRead_written s b _).trans (if_pos rfl)
    | succ k =>
      rw [← ringCell_cursorPos_written s b k]
      exact ih (Nat.lt_of_succ_lt_succ hk) (by omega)

/-- Settles O14: window positions name the cells of the ring; the byte of a last position there
stays, and a cell the run does not come to, hidden ones among them, is as before. -/
theorem consecutiveWritesFillTheRing : Obligations.ConsecutiveWritesFillTheRing := by
  intro bs s
  refine ⟨writtenAll bs s, runOps_writeData bs s, cursorPos_writtenAll bs s,
    fun k hk r c hlast hpos => ?_, fun r c hpos => ?_, fun i hi => ?_, ?_⟩
  · rw [visibleIndex_eq_ringCell.2 hpos]
    exact ddRead_writtenAll_ringCell hk hlast
  · exact ddRead_writtenAll_of_ne fun k hk h => hpos k hk (visibleIndex_eq_ringCell.1 h)
  · exact ddRead_writtenAll_of_ne fun k _ => ne_ringCell_of_hiddenCell hi _
  · exact ⟨writtenAll_keeps (fun _ _ => rfl) bs s, writtenAll_keeps (fun _ _ => rfl) bs s,
      writtenAll_keeps (fun _ _ => rfl) bs s, writtenAll_keeps (fun _ _ => rfl) bs s,
      writtenAll_keeps (fun _ _ => rfl) bs s, writtenAll_keeps (fun _ _ => rfl) bs s⟩

end Sys2Proof.Proofs.WriteData
end

section
/-! PROOF. The control commands (R54 to R56): what CLEAR, HOME and the ignored codes do, and that
CLEAR, HOME and RESET do nothing when done again. -/

namespace Sys2Proof.Proofs.Commands

open Sys2Proof Sys2Proof.Machine

variable {s t : State}

/-! One command. -/

/-- Settles O15: the state after is one fill with the space and a move to the origin. -/
theorem clearFillsDisplayAndHomes : Obligations.ClearFillsDisplayAndHomes := by
  refine ⟨Decode.decode_encode (i := .clear) rfl, fun s => ⟨_, Laws.Ops.exec_clear s, fun i => ?_,
    rfl, rfl, rfl, rfl, rfl, rfl, rfl, rfl⟩⟩
  rw [Laws.Ops.ddRead_homeCursor, Laws.Ops.ddRead_ddFill]

/-- Settles O16: the state after is a move to the origin, which display RAM has no part in. -/
theorem homeMovesOnlyTheCursor : Obligations.HomeMovesOnlyTheCursor :=
  ⟨Decode.decode_encode (i := .home) rfl, fun s => ⟨_, Laws.Ops.exec_home s, rfl, rfl, rfl,
    Laws.Ops.ddRead_homeCursor s, rfl, rfl, rfl, rfl, rfl, rfl⟩⟩

/-- Settles O17: an operation with an ignored code is the identity, and every command word but those
of CLEAR and HOME decodes to one. -/
theorem ignoredCommandsChangeNothing : Obligations.IgnoredCommandsChangeNothing := by
  refine ⟨fun s => ?_, fun k s => ?_, fun k s hclear hhome => ?_⟩
  · exact ⟨Laws.Ops.exec_ignored s rfl, Laws.Ops.exec_ignored s rfl⟩
  · exact ⟨Laws.Ops.exec_ignored s rfl, Laws.Ops.exec_ignored s rfl, Laws.Ops.exec_ignored s rfl,
      Laws.Ops.exec_ignored s rfl, Laws.Ops.exec_ignored s rfl, Laws.Ops.exec_ignored s rfl⟩
  · rw [Encoding.ofNat_toNat_eq_txnWord, Decode.decode_txnWord_false]
    obtain ⟨hcode, -⟩ := Encoding.decodeCommand_ignored hclear hhome
    exact ⟨hcode, Laws.Ops.exec_ignored s hcode⟩

/-! The same command again. -/

/-- With the cursor at the origin HOME has nothing to do. -/
theorem exec_home_of_origin (hcol : s.col = 0#4) (hrow : s.row = 0#1) :
    exec .home s = .next s := by
  cases s
  subst hcol hrow
  rfl

/-- A fill reads nothing of the memory before it. -/
theorem ddFill_homeCursor_ddFill (s : State) (v w : Byte) :
    ddFill (homeCursor (ddFill s v)) w = homeCursor (ddFill s w) := rfl

theorem exec_home_of_exec_home (h : exec .home s = .next t) : exec .home t = .next t := by
  cases h
  exact exec_home_of_origin rfl rfl

theorem exec_home_of_exec_clear (h : exec .clear s = .next t) : exec .home t = .next t := by
  cases h
  exact exec_home_of_origin rfl rfl

theorem exec_clear_of_exec_clear (h : exec .clear s = .next t) : exec .clear t = .next t := by
  have hhome := exec_home_of_exec_clear h
  cases h
  rwa [Laws.Ops.exec_clear, ddFill_homeCursor_ddFill, ← Laws.Ops.exec_home]

/-- After RESET the CGRAM and the flags are already at their reset values. -/
theorem resetFlags_cgFill_of_exec_reset (h : exec .reset s = .next t) :
    resetFlags (cgFill t Config.cgramReset) = t := by
  cases h
  rfl

/-- Settles O24: CLEAR refills what it filled and leaves the cursor where HOME puts it; RESET is a
CLEAR, and after it RESET is CLEAR of the same state. -/
theorem clearHomeResetAreIdempotent : Obligations.ClearHomeResetAreIdempotent := by
  refine ⟨fun s t h => ⟨exec_clear_of_exec_clear h, exec_home_of_exec_clear h⟩,
    fun s t h => exec_home_of_exec_home h, fun s t h => ?_⟩
  have hclear : exec .clear (resetFlags (cgFill s Config.cgramReset)) = .next t := by
    rwa [← ClearReset.exec_reset_eq_exec_clear]
  refine ⟨?_, exec_clear_of_exec_clear hclear, exec_home_of_exec_clear hclear⟩
  rw [ClearReset.exec_reset_eq_exec_clear, resetFlags_cgFill_of_exec_reset h]
  exact exec_clear_of_exec_clear hclear

end Sys2Proof.Proofs.Commands
end

section
/-! PROOF. The read-back operations (R58 to R61): what each hands to the host, and that a READ_CELL
outside its domain is the one operation that does not complete (R69, R87). -/

namespace Sys2Proof.Proofs.ReadBack

open Sys2Proof Sys2Proof.Machine

variable {i : Instr}

theorem exec_next_of_inDomain (h : inDomain i = true) (s : State) : ∃ t, exec i s = .next t := by
  cases i with
  | readCell row col => exact ⟨_, Laws.Ops.exec_readCell_of_lt s row (of_decide_eq_true h)⟩
  | _ => exact ⟨_, rfl⟩

/-- The columns 40..63 of READ_CELL are all that lies outside the domain (R58). -/
theorem exists_readCell_of_not_inDomain (h : inDomain i = false) :
    ∃ row col, i = .readCell row col ∧ Config.rowStride ≤ col.toNat := by
  cases i with
  | readCell row col => exact ⟨row, col, rfl, Nat.le_of_not_lt (of_decide_eq_false h)⟩
  | _ => cases h

/-- Settles O31: inside the domain by the meaning of each operation, outside it by the refusal of
READ_CELL, and there is no fault to end in. -/
theorem everyOperationInItsDomainCompletes : Obligations.EveryOperationInItsDomainCompletes := by
  refine fun i s => ⟨nofun, ?_⟩
  split_ifs with hdomain
  · exact exec_next_of_inDomain hdomain s
  · obtain ⟨row, col, rfl, hcol⟩ := exists_readCell_of_not_inDomain (by simpa using hdomain)
    exact Laws.Ops.exec_readCell_of_le s row hcol

/-- Settles O18: below the stride of 40 the operands name the cell of R24, from it on none. -/
theorem readCellAnswersOrRefuses : Obligations.ReadCellAnswersOrRefuses := by
  refine fun s r c => ⟨fun hc => ?_, Laws.Ops.exec_readCell_of_le s r⟩
  have hlt : c.toNat < Config.rowStride := Nat.lt_succ_of_le hc
  exact ⟨_, Laws.Ops.cellIndex_val r ⟨c.toNat, hlt⟩, Laws.Ops.exec_readCell_of_lt s r hlt⟩

/-- Settles O19: by the meaning of READ_CURSOR, on which no flag has a part. -/
theorem readCursorAnswersColumnThenRow : Obligations.ReadCursorAnswersColumnThenRow :=
  Laws.Ops.exec_readCursor

/-- The flags are appended one bit at a time, so B is the lowest and D the highest (D9). -/
theorem flagBits_eq_concat (s : State) :
    flagBits s = ((BitVec.ofBool s.displayOn).concat s.cursorOn).concat s.blinkOn := rfl

/-- Settles O20: the answer is the packed flags, each of which stands at its place in the append. -/
theorem readFlagsAnswersPackedFlags : Obligations.ReadFlagsAnswersPackedFlags := by
  refine fun s => ⟨flagBits s, Laws.Ops.exec_readFlags s, ?_⟩
  rw [flagBits_eq_concat]
  refine ⟨?_, ?_, BitVec.getLsbD_concat_zero⟩
  · rw [BitVec.getLsbD_concat_succ, BitVec.getLsbD_concat_succ, BitVec.getLsbD_ofBool]
    rfl
  · rw [BitVec.getLsbD_concat_succ, BitVec.getLsbD_concat_zero]

/-- The port's value is the index it names (R61). -/
@[simp] theorem cgPortIndex_val (p : BitVec 6) : (cgPortIndex p).val = p.toNat := rfl

/-- Settles O21: the index is the value of the port, which is always inside the 64 bytes. -/
theorem readCgramAnswersItsByte : Obligations.ReadCgramAnswersItsByte := fun s p =>
  ⟨cgPortIndex p, cgPortIndex_val p, Laws.Ops.exec_readCgram s p⟩

end Sys2Proof.Proofs.ReadBack
end

section
/-! PROOF. What the observer sees (R62 to R68): the cells and the indicator of a picture, what of the
state they depend on, and that B is no part of it (R66). -/

namespace Sys2Proof.Proofs.VisibleOutput

open Sys2Proof Sys2Proof.Machine

variable {s t : State}

/-! The pixels of a glyph (R68). -/

/-- Every pixel column shows one of the low five bits, in either order (D15). -/
theorem pixelBit_lt (x : Fin 5) : pixelBit x < 5 := by
  have hx := x.isLt
  rw [pixelBit]
  split_ifs <;> omega

/-- The order of the pixels is one for all columns. -/
theorem pixelBit_eq_sub_or_eq_val :
    (∀ x : Fin 5, pixelBit x = 4 - x.val) ∨ ∀ x : Fin 5, pixelBit x = x.val := by
  by_cases h : Config.leftmostBitIsFour = true
  · exact .inl fun x => if_pos h
  · exact .inr fun x => if_neg h

theorem glyphImage_congr {g g' : Vector Byte 8}
    (h : ∀ (y : Fin 8) (n : Nat), n < 5 → (g.get y).getLsbD n = (g'.get y).getLsbD n) :
    glyphImage g = glyphImage g' :=
  congrArg Vector.ofFn <| funext fun y =>
    congrArg Vector.ofFn <| funext fun x => h y (pixelBit x) (pixelBit_lt x)

/-- Settles O49: a pixel is the bit its column shows, and that is one of the low five. -/
theorem glyphPixelsAreTheLowFiveBits : Obligations.GlyphPixelsAreTheLowFiveBits := by
  refine ⟨?_, fun g g' => glyphImage_congr⟩
  rcases pixelBit_eq_sub_or_eq_val with horder | horder
  · exact .inl fun g y x => by rw [Glyph.glyphImage_get, horder]
  · exact .inr fun g y x => by rw [Glyph.glyphImage_get, horder]

/-! The cells of a picture (R63, R64). -/

theorem picture_cells_get (s : State) (r : Fin 2) (c : Fin 16) :
    ((picture s).cells.get r).get c = cellImage s r c := by
  rw [picture, Vector.get_ofFn, Vector.get_ofFn]

theorem cellImage_of_displayOn (h : s.displayOn = true) (r : Fin 2) (c : Fin 16) :
    cellImage s r c = glyphImage (glyph s (visibleCode s r c)) := if_pos h

theorem cellImage_of_displayOff (h : s.displayOn = false) (r : Fin 2) (c : Fin 16) :
    cellImage s r c = unlitImage := if_neg (Bool.eq_false_iff.1 h)

theorem unlitImage_get (y : Fin 8) (x : Fin 5) : (unlitImage.get y).get x = false := by
  rw [unlitImage, Vector.get_ofFn, Vector.get_ofFn]

/-- A picture position names its cell of the window (R24, R25). -/
theorem visibleIndex_ofNat_val (r : Fin 2) (c : Fin 16) :
    (visibleIndex (BitVec.ofNat 1 r.val) (BitVec.ofNat 4 c.val)).val = r.val * 40 + c.val := by
  rw [Laws.Ops.visibleIndex_val, BitVec.toNat_ofNat, BitVec.toNat_ofNat,
    Nat.mod_eq_of_lt r.isLt, Nat.mod_eq_of_lt c.isLt]

/-! The cursor indicator (R65). -/

theorem indicator_eq_some_iff {p : BitVec 4 × BitVec 1} : (picture s).indicator = some p ↔
    (s.cursorOn = true ∧ s.displayOn = true) ∧ (s.col, s.row) = p := by
  rw [picture, cursorIndicator, Option.ite_none_right_eq_some, Bool.and_eq_true, Option.some_inj]

theorem indicator_eq_none_iff :
    (picture s).indicator = none ↔ s.cursorOn = false ∨ s.displayOn = false := by
  rw [picture, cursorIndicator, ite_eq_right_iff, ← Bool.and_eq_false_iff]
  simp

/-- Settles O46: both flags gate the indicator, and C is 0 in every reached state (R19). -/
theorem cursorIndicatorNeedsBothFlags : Obligations.CursorIndicatorNeedsBothFlags := by
  refine ⟨fun s c r => ?_, fun s hreach => ?_⟩
  · rw [indicator_eq_some_iff, and_assoc, Prod.mk.injEq, eq_comm (a := s.col),
      eq_comm (a := s.row)]
  · obtain ⟨-, -, -, -, hcursor, -⟩ := Invariant.runInv_of_reachable hreach
    exact indicator_eq_none_iff.2 (.inl hcursor)

/-- Settles O45: D chooses between the glyph of the cell's code and the unlit cell. -/
theorem pictureShowsGlyphsUnlessDisplayIsOff :
    Obligations.PictureShowsGlyphsUnlessDisplayIsOff := by
  refine fun s => ⟨fun hon r c => ⟨_, visibleIndex_ofNat_val r c, ?_⟩,
    fun hoff => ⟨indicator_eq_none_iff.2 (.inr hoff), fun r c y x => ?_⟩⟩
  · rw [picture_cells_get, cellImage_of_displayOn hon, visibleCode]
  · rw [picture_cells_get, cellImage_of_displayOff hoff, unlitImage_get]

/-! What of the state a picture depends on (R62, R66). -/

/-- A glyph depends on CGRAM alone. -/
theorem glyph_congr (h : ∀ j : CgIndex, cgRead s j = cgRead t j) (k : Byte) :
    glyph s k = glyph t k := by
  simp only [glyph, h]

theorem cellImage_congr
    (hcells : ∀ (r : BitVec 1) (c : BitVec 4),
      ddRead s (visibleIndex r c) = ddRead t (visibleIndex r c))
    (hcgram : ∀ j : CgIndex, cgRead s j = cgRead t j) (hdisplay : s.displayOn = t.displayOn)
    (r : Fin 2) (c : Fin 16) : cellImage s r c = cellImage t r c := by
  rw [cellImage, cellImage, hdisplay, visibleCode, visibleCode, hcells, glyph_congr hcgram]

/-- Settles O50: the cells depend on the window, CGRAM and D, the indicator on the cursor, C and
D. -/
theorem pictureDependsOnlyOnWhatReadsAnswer :
    Obligations.PictureDependsOnlyOnWhatReadsAnswer := by
  intro s t hcells hcgram hcol hrow hdisplay hcursor
  have hindicator : cursorIndicator s = cursorIndicator t := by
    rw [cursorIndicator, cursorIndicator, hcol, hrow, hdisplay, hcursor]
  simp only [picture, cellImage_congr hcells hcgram hdisplay, hindicator]

/-- Settles O47: B is none of what a picture depends on; and an operation that is carried along
under any flags leaves D and C as they were, so changing B alone is carried along too. -/
theorem blinkHasNoEffect : Obligations.BlinkHasNoEffect := by
  refine fun s b => ⟨?_, fun i t hreset hread h => ?_⟩
  · exact pictureDependsOnlyOnWhatReadsAnswer _ s (fun _ _ => rfl) (fun _ => rfl) rfl rfl rfl rfl
  · obtain ⟨-, -, -, hflags, -⟩ := Frame.onlyListedOperationsWrite i s t h
    obtain ⟨hdisplay, hcursor, -⟩ := hflags hreset
    have hcarried : exec i { s with blinkOn := b } =
        .next (withFlags t s.displayOn s.cursorOn b) :=
      Frame.exec_withFlags_next hreset hread s.displayOn s.cursorOn b h
    rw [hcarried, ← hdisplay, ← hcursor, withFlags]

end Sys2Proof.Proofs.VisibleOutput
end

section
/-! PROOF. Infinite runs (R89): the finite runs of a sequence's first operations determine its
infinite run, and operations inside their domains never end one (R69, R87). -/

namespace Sys2Proof.Proofs.InfiniteRuns

open Sys2Proof Sys2Proof.Machine

variable {ops : Nat → Instr} {run run' : Nat → State}

/-! What an infinite run passes through. -/

/-- The first operations of an infinite run, as a finite run, leave its state. -/
theorem runOps_firstOps (h : InfiniteRun ops run) (n : Nat) :
    runOps (firstOps ops n) State.reset = .next (run n) := by
  obtain ⟨hreset, hnext⟩ := h
  induction n with
  | zero => rw [Laws.Ops.firstOps_zero, runOps, hreset]
  | succ n ih =>
    rw [Laws.Ops.firstOps_succ, Laws.Ops.runOps_append ih, runOps, hnext]
    rfl

theorem reachable_of_infiniteRun (h : InfiniteRun ops run) (n : Nat) : Reachable (run n) :=
  ⟨firstOps ops n, runOps_firstOps h n⟩

/-- A finite run has one outcome, so the states of an infinite run have no choice. -/
theorem infiniteRun_unique (h : InfiniteRun ops run) (h' : InfiniteRun ops run') : run = run' :=
  funext fun n => Host.Outcome.next.inj <| (runOps_firstOps h n).symm.trans (runOps_firstOps h' n)

/-! An infinite run exists. -/

/-- The states from RESET on when operation `n` takes each state `s` to `next n s`. -/
def statesAlong (next : Nat → State → State) : Nat → State
  | 0 => State.reset
  | n + 1 => next n (statesAlong next n)

theorem infiniteRun_statesAlong {next : Nat → State → State}
    (hnext : ∀ n s, exec (ops n) s = .next (next n s)) : InfiniteRun ops (statesAlong next) :=
  ⟨rfl, fun n => hnext n (statesAlong next n)⟩

/-- Inside its domain an operation has a next state from every state, so the run never ends. -/
theorem exists_infiniteRun (hdomain : ∀ n, inDomain (ops n) = true) :
    ∃ run, InfiniteRun ops run := by
  choose next hnext using fun n => ReadBack.exec_next_of_inDomain (hdomain n)
  exact ⟨statesAlong next, infiniteRun_statesAlong hnext⟩

/-- Settles O52: the run goes on because each operation completes, and it is the only one, through
reached states, because its states are what the finite runs leave. -/
theorem infiniteSequencesHaveOneInfiniteRun : Obligations.InfiniteSequencesHaveOneInfiniteRun := by
  refine ⟨fun ops hdomain => ?_,
    fun ops run hrun n => ⟨runOps_firstOps hrun n, reachable_of_infiniteRun hrun n⟩⟩
  obtain ⟨run, hrun⟩ := exists_infiniteRun hdomain
  exact ⟨run, hrun, fun run' hrun' => infiniteRun_unique hrun' hrun⟩

end Sys2Proof.Proofs.InfiniteRuns
end

section
/-! PROOF. RESET (R82): its fills leave both memories with no entry, so the state after it is that of
R21 and nothing of the block's state before is left. -/

namespace Sys2Proof.Proofs.Reset

open Sys2Proof Sys2Proof.Machine

/-- Display RAM full of spaces lists no cell. -/
theorem ddFill_space (s : State) : ddFill s Config.space = { s with ddram := [] } := by
  rw [ddFill, Laws.Ops.fill_space]

/-- CGRAM full of zeros lists no byte. -/
theorem cgFill_cgramReset (s : State) : cgFill s Config.cgramReset = { s with cgram := [] } := by
  rw [cgFill, Laws.Ops.fill_cgramReset]

/-- RESET takes nothing but the host's side from the state before it (R82). -/
theorem exec_reset_eq_stateReset (s : State) :
    exec .reset s = .next { State.reset with pending := s.pending, answer := s.answer } := by
  rw [Laws.Ops.exec_reset, ddFill_space, cgFill_cgramReset]
  rfl

/-- Settles O22: the block's elements are those of the state after RESET, whose values R21 lists; the
host's side has no part in them. -/
theorem resetSetsEveryElement : Obligations.ResetSetsEveryElement := by
  intro s
  obtain ⟨hcells, hcgram, hcol, hrow, hdisplay, hcursor, hblink⟩ :=
    Invariant.resetStateHoldsTheListedValues
  exact ⟨_, exec_reset_eq_stateReset s, hcells, hcgram, hcol, hrow, hdisplay, hcursor, hblink, rfl⟩

end Sys2Proof.Proofs.Reset
end
